-- ==== Sys2Proof/Word.lean ====
section
/-! DEFINITION. The words of the SYN16 engine (00_scope.md rules R4, R5, R6). Every value is
unsigned; bit 0 is the least significant bit. -/

namespace Sys2Proof

/-- `W16`, what a memory cell, a register, a stack entry, a queue entry and an emitted code hold
(00_scope.md rules R4, R5; decision D2, log 11). -/
abbrev Word := BitVec 16

/-- `V15`, the range of a literal operand word (00_scope.md rule R5). -/
abbrev Lit := BitVec 15

/-- A byte of the program image (20_memory.md rule R54). -/
abbrev Byte := BitVec 8

end Sys2Proof
end

