-- ==== Sys2Proof/Config.lean ====
section
/-! DEFINITION. The parameters of the engine (00_scope.md rule R4): the constants the source fixes,
and the two parameters an integrator may set. -/

namespace Sys2Proof.Config

/-- `NREGS`, the number of general registers. -/
abbrev numRegs : Nat := 8

/-- `M`, the modulus of ADD, MULT, MOD and NOT results. -/
abbrev modulus : Nat := 32768

/-- `REG_BASE`, the first operand word that names a register. -/
abbrev regBase : Nat := 32768

/-- `INVALID_BASE`, the first operand word that names nothing. -/
abbrev invalidBase : Nat := 32776

/-- `MEM_WORDS`, the number of addressable memory cells (decisions D3, D5). -/
abbrev memWords : Nat := 32768

/-- `TERMINATOR`, the code appended to every input line (49_io.md rule R215). -/
abbrev terminator : Word := 10

/-- The two parameters that an integrator may set, fixed for a run (log 2). -/
structure Params where
  /-- `MEM_FILL`: what a cell never loaded and never written reads as; `none`: the read raises
  UnwrittenRead (20_memory.md rule R61, decision D4). -/
  memFill : Option Word
  /-- `STACK_DEPTH`: the bound on the number of stack entries; `none`: unbounded
  (10_state.md rule R28, decision D7). -/
  stackDepth : Option Nat
deriving DecidableEq, Repr

/-- The default of 00_scope.md rule R4: both `none`. -/
def defaultParams : Params := { memFill := none, stackDepth := none }

end Sys2Proof.Config
end

