-- ==== Sys2Proof/Syntax.lean ====
section
/-! DEFINITION. The instructions as syntax: operand words by class (30_encoding.md rule R84), the
22 opcode names (rule R83), and one constructor of `Instr` per row of spec/opcode_table.json. -/

namespace Sys2Proof

/-- An operand word by its class (30_encoding.md rule R84). The word itself is `encodeOperand`
in Decode.lean. -/
inductive Operand where
  /-- A word 0..32767: the value itself as a source, a memory cell as a destination. -/
  | literal (v : Lit)
  /-- A word 32768..32775: register `r`. -/
  | reg (r : Fin 8)
  /-- A word 32776..65535: legal to fetch, raises InvalidOperand when it is used. -/
  | invalid (w : Word)
deriving DecidableEq, Repr

/-- The operand positions `a`, `b`, `c`: the words at `pc+1`, `pc+2`, `pc+3`
(30_encoding.md rule R80). -/
inductive Pos where
  | a | b | c
deriving DecidableEq, Repr

/-- The 22 opcode names (30_encoding.md rule R83). `inp` is IN. -/
inductive Op where
  | halt | set | push | pop | eq | gt | jmp | jt | jf | add | mult
  | mod | and | or | not | rmem | wmem | call | ret | out | inp | noop
deriving DecidableEq, Repr

/-- One instruction with its operand words in the order `a b c`. The role of each position is that
of 30_encoding.md rule R85. -/
inductive Instr where
  /-- HALT, rule R130. -/
  | halt
  /-- SET, rule R140: `a` destination, `b` source. -/
  | set (a b : Operand)
  /-- PUSH, rule R141: `a` source. -/
  | push (a : Operand)
  /-- POP, rule R142: `a` destination. -/
  | pop (a : Operand)
  /-- EQ, rule R150: `a` destination, `b` and `c` sources. -/
  | eq (a b c : Operand)
  /-- GT, rule R151: `a` destination, `b` and `c` sources. -/
  | gt (a b c : Operand)
  /-- JMP, rule R160: `a` source, the target. -/
  | jmp (a : Operand)
  /-- JT, rule R161: `a` source, the condition; `b` source, the target. -/
  | jt (a b : Operand)
  /-- JF, rule R162: `a` source, the condition; `b` source, the target. -/
  | jf (a b : Operand)
  /-- ADD, rule R170: `a` destination, `b` and `c` sources. -/
  | add (a b c : Operand)
  /-- MULT, rule R171: `a` destination, `b` and `c` sources. -/
  | mult (a b c : Operand)
  /-- MOD, rule R172: `a` destination, `b` dividend, `c` divisor. -/
  | mod (a b c : Operand)
  /-- AND, rule R180: `a` destination, `b` and `c` sources. -/
  | and (a b c : Operand)
  /-- OR, rule R181: `a` destination, `b` and `c` sources. -/
  | or (a b c : Operand)
  /-- NOT, rule R182: `a` destination, `b` source. -/
  | not (a b : Operand)
  /-- RMEM, rule R190: `a` destination, `b` source whose value is the address. -/
  | rmem (a b : Operand)
  /-- WMEM, rule R191: `a` source whose value is the address, `b` source. -/
  | wmem (a b : Operand)
  /-- CALL, rule R200: `a` source, the target. -/
  | call (a : Operand)
  /-- RET, rule R201. -/
  | ret
  /-- OUT, rule R210: `a` source. -/
  | out (a : Operand)
  /-- IN, rule R211: `a` destination. -/
  | inp (a : Operand)
  /-- NOOP, rule R131. -/
  | noop
deriving DecidableEq, Repr

/-- The opcode name of an instruction. -/
def Instr.op : Instr → Op
  | .halt => .halt
  | .set _ _ => .set
  | .push _ => .push
  | .pop _ => .pop
  | .eq _ _ _ => .eq
  | .gt _ _ _ => .gt
  | .jmp _ => .jmp
  | .jt _ _ => .jt
  | .jf _ _ => .jf
  | .add _ _ _ => .add
  | .mult _ _ _ => .mult
  | .mod _ _ _ => .mod
  | .and _ _ _ => .and
  | .or _ _ _ => .or
  | .not _ _ => .not
  | .rmem _ _ => .rmem
  | .wmem _ _ => .wmem
  | .call _ => .call
  | .ret => .ret
  | .out _ => .out
  | .inp _ => .inp
  | .noop => .noop

/-- The operand words of an instruction in the order `a b c` (30_encoding.md rule R80). -/
def Instr.operands : Instr → List Operand
  | .halt => []
  | .set a b => [a, b]
  | .push a => [a]
  | .pop a => [a]
  | .eq a b c => [a, b, c]
  | .gt a b c => [a, b, c]
  | .jmp a => [a]
  | .jt a b => [a, b]
  | .jf a b => [a, b]
  | .add a b c => [a, b, c]
  | .mult a b c => [a, b, c]
  | .mod a b c => [a, b, c]
  | .and a b c => [a, b, c]
  | .or a b c => [a, b, c]
  | .not a b => [a, b]
  | .rmem a b => [a, b]
  | .wmem a b => [a, b]
  | .call a => [a]
  | .ret => []
  | .out a => [a]
  | .inp a => [a]
  | .noop => []

end Sys2Proof
end

