-- ==== Sys2Proof/WellFormed.lean ====
section
/-! DEFINITION. Which instruction terms stand for words of memory. The types bound a literal and a
register number; the one check left is that an operand of the class `invalid` carries a word of
that class (30_encoding.md rule R84). It is made in every operand position. -/

namespace Sys2Proof

/-- The word of an `invalid` operand is 32776 or more (30_encoding.md rule R84). -/
def Operand.wf : Operand → Bool
  | .literal _ => true
  | .reg _ => true
  | .invalid w => decide (Config.invalidBase ≤ w.toNat)

/-- Every operand of the instruction is well formed. -/
def Instr.wf (i : Instr) : Bool := i.operands.all Operand.wf

end Sys2Proof
end

