-- ==== Sys2Proof/Decode.lean ====
section
/-! DEFINITION. The program image as bytes (20_memory.md rules R54, R55), the decoder (30_encoding.md
rules R80 to R90) and, after it, the encoder. The decoder reads its words through a reader, in the
order of 40_cycle_and_operands.md rules R101 to R103, so that the bytes of an image and the cells
at `pc` are decoded by the same text. -/

namespace Sys2Proof

/-! ### Bytes and words -/

/-- `hi ++ lo`: the byte at the lower file offset is the low-order byte (20_memory.md rule R54). -/
def wordOfBytes (lo hi : Byte) : Word := hi ++ lo

/-- The words of a byte sequence, little-endian; an odd last byte contributes to no word
(20_memory.md rules R54, R55). -/
def wordsOfBytes : List Byte → List Word
  | lo :: hi :: rest => wordOfBytes lo hi :: wordsOfBytes rest
  | _ => []

/-- `enc(ws)`: the bytes `[w mod 256, w div 256]` of each word in turn (30_encoding.md rule R94). -/
def bytesOfWords : List Word → List Byte
  | [] => []
  | w :: ws => BitVec.ofNat 8 (w.toNat % 256) :: BitVec.ofNat 8 (w.toNat / 256) :: bytesOfWords ws

/-! ### The opcode table -/

/-- `OPCODE_MAP`, the one table of opcode numbers (30_encoding.md rule R87; decision D1, log 5). -/
def opcodeMap : List (Nat × Op) :=
  [(0, .halt), (1, .set), (2, .push), (3, .pop), (4, .eq), (5, .gt), (6, .jmp), (7, .jt)] ++
  [(8, .jf), (9, .add), (10, .mult), (11, .mod), (12, .and), (13, .or), (14, .not), (15, .rmem)] ++
  [(16, .wmem), (17, .call), (18, .ret), (19, .out), (20, .inp), (21, .noop)]

/-- The opcode a word selects by its whole value, if any (30_encoding.md rules R82, R88). -/
def opOfWord (w : Word) : Option Op :=
  (opcodeMap.find? (fun row => row.1 == w.toNat)).map (fun row => row.2)

/-- The instruction length in words, opcode word included (30_encoding.md rule R83). -/
def opLength : Op → Nat
  | .halt => 1
  | .set => 3
  | .push => 2
  | .pop => 2
  | .eq => 4
  | .gt => 4
  | .jmp => 2
  | .jt => 3
  | .jf => 3
  | .add => 4
  | .mult => 4
  | .mod => 4
  | .and => 4
  | .or => 4
  | .not => 3
  | .rmem => 3
  | .wmem => 3
  | .call => 2
  | .ret => 1
  | .out => 2
  | .inp => 2
  | .noop => 1

/-! ### Decoding -/

/-- The class of an operand word (30_encoding.md rule R84). Total: every word has a class, and none
is rejected here (rule R86). -/
def decodeOperand (w : Word) : Operand :=
  if w.toNat < Config.regBase then .literal (w.setWidth 15)
  else if w.toNat < Config.invalidBase then .reg (Fin.ofNat 8 (w.toNat - Config.regBase))
  else .invalid w

/-- An instruction of format F1 (30_encoding.md rule R81): one operand word is read. -/
def readOne {ε : Type} (word : Nat → Except ε Word) (mk : Operand → Instr) : Except ε Instr := do
  let a ← word 1
  .ok (mk (decodeOperand a))

/-- An instruction of format F2: two operand words are read, in ascending order. -/
def readTwo {ε : Type} (word : Nat → Except ε Word) (mk : Operand → Operand → Instr) :
    Except ε Instr := do
  let a ← word 1
  let b ← word 2
  .ok (mk (decodeOperand a) (decodeOperand b))

/-- An instruction of format F3: three operand words are read, in ascending order. -/
def readThree {ε : Type} (word : Nat → Except ε Word) (mk : Operand → Operand → Operand → Instr) :
    Except ε Instr := do
  let a ← word 1
  let b ← word 2
  let c ← word 3
  .ok (mk (decodeOperand a) (decodeOperand b) (decodeOperand c))

/-- Reads the operand words an opcode has, all of them and no more
(40_cycle_and_operands.md rule R103), and builds the instruction. -/
def readOperands {ε : Type} (word : Nat → Except ε Word) : Op → Except ε Instr
  | .halt => .ok .halt
  | .set => readTwo word .set
  | .push => readOne word .push
  | .pop => readOne word .pop
  | .eq => readThree word .eq
  | .gt => readThree word .gt
  | .jmp => readOne word .jmp
  | .jt => readTwo word .jt
  | .jf => readTwo word .jf
  | .add => readThree word .add
  | .mult => readThree word .mult
  | .mod => readThree word .mod
  | .and => readThree word .and
  | .or => readThree word .or
  | .not => readTwo word .not
  | .rmem => readTwo word .rmem
  | .wmem => readTwo word .wmem
  | .call => readOne word .call
  | .ret => .ok .ret
  | .out => readOne word .out
  | .inp => readOne word .inp
  | .noop => .ok .noop

/-- Decodes one instruction whose word `k` is `word k`: the opcode word first, the unknown opcode
before any operand word (40_cycle_and_operands.md rules R101 to R103, 30_encoding.md rule R88). -/
def decodeFrom {ε : Type} (word : Nat → Except ε Word) (unknown : Word → ε) : Except ε Instr := do
  let w ← word 0
  match opOfWord w with
  | none => .error (unknown w)
  | some o => readOperands word o

/-- Why a word sequence starts with no instruction. -/
inductive DecodeError where
  /-- The first word is no opcode number (30_encoding.md rule R88). -/
  | unknownOpcode (w : Word)
  /-- The sequence ends before word `k` of the instruction. -/
  | truncated (k : Nat)
deriving DecidableEq, Repr

/-- Word `k` of a word sequence. -/
def wordAt (ws : List Word) (k : Nat) : Except DecodeError Word :=
  match ws[k]? with
  | some w => .ok w
  | none => .error (.truncated k)

/-- The instruction a word sequence starts with, and the words after it
(30_encoding.md rule R89: the length comes from the opcode word alone). -/
def decode (ws : List Word) : Except DecodeError (Instr × List Word) :=
  match decodeFrom (wordAt ws) DecodeError.unknownOpcode with
  | .ok i => .ok (i, ws.drop (opLength i.op))
  | .error e => .error e

/-- The instruction a byte sequence starts with: total on any bytes. -/
def decodeBytes (bs : List Byte) : Except DecodeError (Instr × List Word) :=
  decode (wordsOfBytes bs)

/-! ### Encoding -/

/-- The opcode word of an opcode (30_encoding.md rule R87). Every opcode has a row of the table. -/
def opcodeWord (o : Op) : Word :=
  match opcodeMap.find? (fun row => row.2 == o) with
  | some row => BitVec.ofNat 16 row.1
  | none => 0

/-- The operand word of an operand (30_encoding.md rule R84). -/
def encodeOperand : Operand → Word
  | .literal v => v.setWidth 16
  | .reg r => BitVec.ofNat 16 (Config.regBase + r.val)
  | .invalid w => w

/-- The words of an instruction: opcode word, then operand words (30_encoding.md rules R80, R81). -/
def encode (i : Instr) : List Word := opcodeWord i.op :: i.operands.map encodeOperand

/-! ### The opcode table's numbering -/

/-- The eight bytes, lowest address first, of the longest instruction whose bits below `nbits` are
those of `w` and whose other bits are 0. -/
def tableBytes (nbits w : Nat) : List Byte :=
  (List.range 8).map (fun k => BitVec.ofNat 8 ((w % 2 ^ nbits) / 256 ^ k % 256))

/-- The instruction the decoder reads from an instruction whose bits are numbered as
spec/opcode_table.json numbers them; `none` where it refuses. -/
def decodeTableWord (nbits w : Nat) : Option Instr :=
  match decodeBytes (tableBytes nbits w) with
  | .ok (i, _) => some i
  | .error _ => none

end Sys2Proof
end

