-- ==== Sys2Proof/Machine/State.lean ====
section
/-! DEFINITION. The state of the machine as plain data (10_state.md rule R20), the reasons a step
can stop, and the state right after reset (rule R41). -/

namespace Sys2Proof.Machine

/-- One memory cell: its address and its 16-bit content. The memory is word-addressed: "an address
names one 16-bit cell, never a byte" (20_memory.md rule R50; log 1). -/
abbrev Cell := Nat × Word

/-- `MEM`, the partial map from 0..32767 to `W16` (10_state.md rule R29, 20_memory.md rule R60): the
defined cells, addresses strictly rising. An address that is not listed is an undefined cell. -/
abbrev Memory := List Cell

/-- `RS`, the run state (10_state.md rule R31). -/
inductive RunState where
  | running
  | awaitingInput
  | halted
  | faulted
deriving DecidableEq, Repr

/-- The six exceptions (60_exceptions.md rule R240). -/
inductive Cause where
  | invalidOperand
  | stackUnderflow
  | unknownOpcode
  | addressFault
  | unwrittenRead
  | stackOverflow
deriving DecidableEq, Repr

/-- The one sub-cause the spec names: InvalidOperand raised by MOD's zero divisor
(60_exceptions.md rule R241 (b), decision D11; log 15). -/
inductive SubCause where
  | divisorZero
deriving DecidableEq, Repr

/-- One entry of `ERR.operands` (10_state.md rule R34, 60_exceptions.md rule R240; log 7). -/
inductive ErrEntry where
  /-- An implicated operand: its position, its raw word and, where it was resolved, its value. -/
  | operand (pos : Pos) (raw : Word) (value : Option Word)
  /-- The address that could not be accessed. -/
  | address (addr : Nat)
deriving DecidableEq, Repr

/-- What `raise E(info)` is given: the exception and its information (60_exceptions.md rule R249). -/
structure Raise where
  cause : Cause
  subCause : Option SubCause
  operands : List ErrEntry
deriving DecidableEq, Repr

/-- `ERR`, the error report (10_state.md rule R34). -/
structure Err where
  /-- The exception. Its number is `Cause.code` in Machine/Ops.lean. -/
  cause : Cause
  /-- The sub-cause, where the spec names one. -/
  subCause : Option SubCause
  /-- The fetched opcode word; absent if its fetch failed. -/
  opcode : Option Word
  /-- The address of the failing instruction's opcode word. -/
  pc : Word
  /-- The implicated operands. -/
  operands : List ErrEntry
deriving DecidableEq, Repr

/-- One operand of a trace record: "each operand's raw word and resolved value" (60_exceptions.md
rule R255). The value is absent where the spec does not say what it is (log 6). -/
structure TraceOperand where
  raw : Word
  value : Option Word
deriving DecidableEq, Repr

/-- One trace record: "opcode name, instruction pointer, and each operand's raw word and resolved
value" (60_exceptions.md rule R255). -/
structure TraceRecord where
  op : Op
  pc : Word
  operands : List TraceOperand
deriving DecidableEq, Repr

/-- A move of the host on a suspended engine (49_io.md rules R214, R218, R220). -/
inductive HostAction where
  /-- SupplyLine: one line of text, its terminator excluded. -/
  | supplyLine (line : List Word)
  /-- DebugAssist. -/
  | debugAssist
deriving DecidableEq, Repr

/-- The host-visible status: "`RS`, `ERR`, `TRACE_EN` and `pc`, read-only to the host" (10_state.md rule
R37; log 19). It is a view of the state, not a piece of it. -/
structure HostStatus where
  rs : RunState
  /-- The error report when Faulted, else `none` (49_io.md rule R220). -/
  err : Option Err
  traceEn : Bool
  /-- In Halted and Faulted the address of the halting or failing instruction (90_conflicts.md C5,
  decision D14; log 18). -/
  pc : Word
deriving DecidableEq, Repr

/-- The whole state: the eight pieces of 10_state.md rule R20, the two outputs that rules R20 and R35
say the model records, the parameters of the run (00_scope.md rule R4; log 2), and the host's moves
to come (log 3). -/
structure State where
  /-- `x[0..7]`, rule R21. -/
  regs : Vector Word 8
  /-- `pc`, rule R24. -/
  pc : Word
  /-- `MEM`, rule R29. -/
  mem : Memory
  /-- `STACK`, rule R27: bottom first, top last. -/
  stack : List Word
  /-- `INQ`, rule R30: head first. -/
  inq : List Word
  /-- `RS`, rule R31. -/
  rs : RunState
  /-- `TRACE_EN`, rule R33. -/
  traceEn : Bool
  /-- `ERR`, rule R34; `none` until the engine faults. -/
  err : Option Err
  /-- `OUTLOG`, rule R35: the codes emitted so far, oldest first. -/
  outLog : List Word
  /-- The trace records emitted so far, oldest first (60_exceptions.md rule R255). -/
  traceLog : List TraceRecord
  /-- `MEM_FILL` and `STACK_DEPTH` of this run (00_scope.md rule R4). No step changes it. -/
  params : Config.Params
  /-- The host's moves to come, oldest first; the model's own field (log 3). -/
  host : List HostAction
deriving DecidableEq, Repr

/-- Why `step` has no next state: the three run states in which the core has no step
(40_cycle_and_operands.md rule R100; log 4). The engine's own exceptions are not among them: each is
a next state whose run state is Faulted (60_exceptions.md rule R249). -/
inductive Fault where
  /-- Raised by `step` in AwaitingInput when the host makes no further move: the engine waits
  (60_exceptions.md rule R259). Safe: the model stops where the engine waits. -/
  | awaitingInput
  /-- Raised by `step` in Halted, which is terminal (10_state.md rule R31). Safe: the engine has no
  step there. -/
  | halted
  /-- Raised by `step` in Faulted, which is terminal (60_exceptions.md rule R251). Safe: the engine
  has no step there. -/
  | faulted
deriving DecidableEq, Repr

/-- What the model gives no meaning. -/
inductive Refusal where
  /-- Raised by an arm of `exec` whose instruction has no meaning yet; no arm is left. Safe. -/
  | notModelled (mnemonic : String)
  /-- Raised by `boot` for an image of more than 32768 words, which the spec asks the model to refuse
  (20_memory.md rule R56, decision D3). Safe. -/
  | imageTooLong
deriving DecidableEq, Repr

/-- What a meaning and a step answer. -/
abbrev Result := Host.Outcome State Fault Refusal

/-- The state right after reset (10_state.md rule R41), with an empty image, an empty preseed, the
default parameters and a host that makes no move. A program is loaded by `boot` in
Machine/Image.lean (log 9). -/
def State.reset : State where
  regs := Vector.replicate 8 0
  pc := 0
  mem := []
  stack := []
  inq := []
  rs := .running
  traceEn := false
  err := none
  outLog := []
  traceLog := []
  params := Config.defaultParams
  host := []

end Sys2Proof.Machine
end

