-- ==== Sys2Proof/Machine/Ops.lean ====
section
/-! DEFINITION. The named operations on the state: registers, pc, memory, stack, queues, run state,
and taking an exception. Checks answer `Except Raise`: they read the state and write nothing
(40_cycle_and_operands.md rule R105). -/

namespace Sys2Proof.Machine

/-- Phase 1 of an instruction: a value, or the exception the first failing check raises
(40_cycle_and_operands.md rule R105). -/
abbrev Check (α : Type) := Except Raise α

/-! ### Registers and pc -/

/-- `x[r]` (10_state.md rule R21). -/
def State.reg (s : State) (r : Fin 8) : Word := s.regs[r]

/-- `x[r] <- v` (10_state.md rules R21, R22): stored whole. -/
def State.setReg (s : State) (r : Fin 8) (v : Word) : State := { s with regs := s.regs.set r v }

/-- `pc <- target` (10_state.md rule R24): stored whole, unchecked. -/
def State.setPc (s : State) (v : Word) : State := { s with pc := v }

/-- `pc <- pc + len(op)` (10_state.md rule R25, 40_cycle_and_operands.md rule R106). A fetched
instruction ends at 32767 or below, so the sum never wraps in a step (10_state.md rule R26; log 8). -/
def State.advance (s : State) (o : Op) : State := s.setPc (s.pc + BitVec.ofNat 16 (opLength o))

/-! ### Memory -/

/-- The content of a cell, `none` if it is undefined (20_memory.md rule R60). -/
def Memory.read : Memory → Nat → Option Word
  | [], _ => none
  | (a, w) :: m, addr => if a = addr then some w else Memory.read m addr

/-- The memory with one cell defined (20_memory.md rule R53): the addresses stay strictly rising. -/
def Memory.write : Memory → Nat → Word → Memory
  | [], addr, v => [(addr, v)]
  | (a, w) :: m, addr, v =>
    if addr < a then (addr, v) :: (a, w) :: m
    else if addr = a then (addr, v) :: m
    else (a, w) :: Memory.write m addr v

/-- Addresses strictly rise from `lo` on and stay below 32768. -/
def Memory.wfFrom (lo : Nat) : Memory → Bool
  | [] => true
  | (a, _) :: m => decide (lo ≤ a) && decide (a < Config.memWords) && Memory.wfFrom (a + 1) m

/-- The canonical form: addresses strictly rising, all below 32768. An unlisted address reads as
undefined, so no listed cell can equal an unlisted one. -/
def Memory.wf (m : Memory) : Bool := Memory.wfFrom 0 m

/-- The memory write, the address known to be below 32768. -/
def State.storeCell (s : State) (addr : Nat) (v : Word) : State :=
  { s with mem := s.mem.write addr v }

/-- AddressFault (60_exceptions.md rule R244): records the address and, for RMEM and WMEM, the
operand it came from. -/
def Raise.addressFault (addr : Nat) (src : List ErrEntry) : Raise :=
  { cause := .addressFault, subCause := none, operands := .address addr :: src }

/-- UnwrittenRead (60_exceptions.md rule R245): records the address. -/
def Raise.unwrittenRead (addr : Nat) : Raise :=
  { cause := .unwrittenRead, subCause := none, operands := [.address addr] }

/-- `MemRead(addr, 1)` (20_memory.md rule R52). `src` is the operand the address came from. -/
def memRead (s : State) (src : List ErrEntry) (addr : Nat) : Check Word :=
  if Config.memWords ≤ addr then .error (Raise.addressFault addr src)
  else match s.mem.read addr with
    | some w => .ok w
    | none => match s.params.memFill with
      | some v => .ok v
      | none => .error (Raise.unwrittenRead addr)

/-- `MemWrite(addr, 1, v)` (20_memory.md rule R53). `src` is the operand the address came from. -/
def memWrite (s : State) (src : List ErrEntry) (addr : Nat) (v : Word) : Check State :=
  if Config.memWords ≤ addr then .error (Raise.addressFault addr src)
  else .ok (s.storeCell addr v)

/-! ### Stack -/

/-- `push(v)` (10_state.md rule R27), unchecked. -/
def State.push (s : State) (v : Word) : State := { s with stack := s.stack ++ [v] }

/-- The stack as a whole is replaced. -/
def State.setStack (s : State) (l : List Word) : State := { s with stack := l }

/-- `pop()` (10_state.md rule R27): the top entry and the state without it; `none` when
`STACK = []`. -/
def State.pop? (s : State) : Option (Word × State) :=
  match s.stack.getLast? with
  | none => none
  | some v => some (v, s.setStack s.stack.dropLast)

/-- StackOverflow (60_exceptions.md rule R246): records no operand. -/
def Raise.stackOverflow : Raise := { cause := .stackOverflow, subCause := none, operands := [] }

/-- "if STACK_DEPTH = some n and |STACK| = n then raise StackOverflow" (42_move_stack.md rule R141,
48_call_return.md rule R200). -/
def stackRoom (s : State) : Check Unit :=
  if s.params.stackDepth = some s.stack.length then .error Raise.stackOverflow else .ok ()

/-! ### Queues, outputs, run state -/

/-- The input queue as a whole is replaced. -/
def State.setInq (s : State) (q : List Word) : State := { s with inq := q }

/-- `deq()` (10_state.md rule R30): the head and the state without it; `none` when `INQ = []`. -/
def State.deq? (s : State) : Option (Word × State) :=
  match s.inq with
  | [] => none
  | v :: q => some (v, s.setInq q)

/-- `emit(v)` (49_io.md rule R212): appended to the output, complete at once. -/
def State.emit (s : State) (v : Word) : State := { s with outLog := s.outLog ++ [v] }

/-- `RS <- v` (10_state.md rule R31). -/
def State.setRs (s : State) (v : RunState) : State := { s with rs := v }

/-- One trace record is appended (60_exceptions.md rule R255). -/
def State.addTrace (s : State) (t : TraceRecord) : State :=
  { s with traceLog := s.traceLog ++ [t] }

/-! ### Exceptions -/

/-- The cause codes (60_exceptions.md rule R240, decision D9). -/
def Cause.code : Cause → Nat
  | .invalidOperand => 1
  | .stackUnderflow => 2
  | .unknownOpcode => 3
  | .addressFault => 4
  | .unwrittenRead => 5
  | .stackOverflow => 6

/-- UnknownOpcode (60_exceptions.md rule R243): records no operand; `ERR.opcode` is the word. -/
def Raise.unknownOpcode : Raise := { cause := .unknownOpcode, subCause := none, operands := [] }

/-- TAKING AN EXCEPTION, `raise E(info)` (60_exceptions.md rule R249): ERR is written, the run state
becomes Faulted, and nothing else changes. `opcode` is the fetched opcode word, absent if its fetch
failed. There is no return from an exception (rule R251). -/
def State.raise (s : State) (opcode : Option Word) (e : Raise) : State :=
  { s with
    rs := .faulted
    err := some { cause := e.cause, subCause := e.subCause, opcode := opcode, pc := s.pc,
                  operands := e.operands } }

/-- The end of an instruction: the state its phase 2 wrote, or the exception its phase 1 raised, taken
in the state before the instruction (40_cycle_and_operands.md rule R105). -/
def complete (o : Op) (s : State) (r : Check State) : Result :=
  match r with
  | .ok t => .next t
  | .error e => .next (s.raise (some (opcodeWord o)) e)

end Sys2Proof.Machine
end

