-- ==== Sys2Proof/Machine/Operands.lean ====
section
/-! DEFINITION. Operand resolution: `rd`, `destok` and `wr` (40_cycle_and_operands.md rules R107,
R108). -/

namespace Sys2Proof.Machine

/-- An operand as `ERR.operands` records it (10_state.md rule R34). -/
def operandEntry (p : Pos) (o : Operand) (value : Option Word) : ErrEntry :=
  .operand p (encodeOperand o) value

/-- InvalidOperand, cause (a) (60_exceptions.md rule R241): records the position and the raw word. -/
def Raise.invalidOperand (p : Pos) (o : Operand) : Raise :=
  { cause := .invalidOperand, subCause := none, operands := [operandEntry p o none] }

/-- The value of a source operand, `none` if its word is invalid: a literal is used as it stands, a
register's content is not resolved again (40_cycle_and_operands.md rule R107). -/
def resolve (s : State) : Operand → Option Word
  | .literal v => some (v.setWidth 16)
  | .reg r => some (s.reg r)
  | .invalid _ => none

/-- `rd(w)` at position `p` (40_cycle_and_operands.md rule R107). -/
def rd (s : State) (p : Pos) (o : Operand) : Check Word :=
  match resolve s o with
  | some v => .ok v
  | none => .error (Raise.invalidOperand p o)

/-- The place a valid destination word names: a register or a memory cell, "never both"
(20_memory.md rule R51, 40_cycle_and_operands.md rule R108). -/
inductive Dest where
  | reg (r : Fin 8)
  | cell (a : Lit)
deriving DecidableEq, Repr

/-- The place a destination word names, `none` if it is invalid. -/
def destOf : Operand → Option Dest
  | .literal v => some (.cell v)
  | .reg r => some (.reg r)
  | .invalid _ => none

/-- `destok(t)` at position `p` (40_cycle_and_operands.md rule R108). -/
def destok (p : Pos) (o : Operand) : Check Dest :=
  match destOf o with
  | some d => .ok d
  | none => .error (Raise.invalidOperand p o)

/-- `wr(t, v)` after `destok(t)` (40_cycle_and_operands.md rule R108): exactly one place is written,
all 16 bits of `v`. -/
def State.wr (s : State) (d : Dest) (v : Word) : State :=
  match d with
  | .reg r => s.setReg r v
  | .cell a => s.storeCell a.toNat v

end Sys2Proof.Machine
end

