-- ==== Sys2Proof/Machine/Flags.lean ====
section
/-! DEFINITION. The engine has no flags (10_state.md rule R36): a comparison writes 0 or 1 to an
ordinary destination and a conditional jump tests an ordinary operand. The two conversions between
truth values and words stand here. -/

namespace Sys2Proof.Machine

/-- The value a comparison writes (43_compare.md rules R150, R151). -/
def truthWord (b : Bool) : Word := if b then 1 else 0

/-- The condition of JT: any non-zero `W16` value is true (44_jumps.md rule R161). -/
def nonZero (v : Word) : Bool := v != 0

end Sys2Proof.Machine
end

