-- ==== Sys2Proof/Machine/Shapes.lean ====
section
/-! DEFINITION. What instructions of one shape share (30_encoding.md rule R85): the checks in the
order of 40_cycle_and_operands.md rule R109, then all the writes at once (rule R105). -/

namespace Sys2Proof.Machine

/-- `D S`: sources before the destination; the result is written and pc advances. -/
def unaryResult (o : Op) (f : Word → Word) (a b : Operand) (s : State) : Result :=
  complete o s do
    let vb ← rd s .b b
    let d ← destok .a a
    .ok ((s.wr d (f vb)).advance o)

/-- `D S S`: sources `b`, `c`, then the destination; the result is written and pc advances. -/
def binaryResult (o : Op) (f : Word → Word → Word) (a b c : Operand) (s : State) : Result :=
  complete o s do
    let vb ← rd s .b b
    let vc ← rd s .c c
    let d ← destok .a a
    .ok ((s.wr d (f vb vc)).advance o)

/-- JT and JF: the target is resolved only when the jump is taken (44_jumps.md rules R161, R162;
decision D12, log 16). -/
def conditionalJump (o : Op) (taken : Word → Bool) (a b : Operand) (s : State) : Result :=
  complete o s do
    let va ← rd s .a a
    if taken va then do
      let t ← rd s .b b
      .ok (s.setPc t)
    else
      .ok (s.advance o)

end Sys2Proof.Machine
end

