-- ==== Sys2Proof/Machine/Arithmetic.lean ====
section
/-! DEFINITION. ADD, MULT, MOD (45_arithmetic.md): exact on natural numbers, then reduced modulo
32768 (rule R173). -/

namespace Sys2Proof.Machine

/-- An exact result reduced modulo 32768 (40_cycle_and_operands.md rule R112). -/
def reduced (n : Nat) : Word := BitVec.ofNat 16 (n % Config.modulus)

/-- ADD's result (rule R170). -/
def addResult (vb vc : Word) : Word := reduced (vb.toNat + vc.toNat)

/-- MULT's result (rule R171). -/
def multResult (vb vc : Word) : Word := reduced (vb.toNat * vc.toNat)

/-- MOD's result (rule R172), the divisor not 0. -/
def modResult (vb vc : Word) : Word := reduced (vb.toNat % vc.toNat)

/-- ADD (rule R170). -/
def execAdd (a b c : Operand) (s : State) : Result := binaryResult .add addResult a b c s

/-- MULT (rule R171). -/
def execMult (a b c : Operand) (s : State) : Result := binaryResult .mult multResult a b c s

/-- InvalidOperand, cause (b): MOD's divisor resolves to 0 (60_exceptions.md rule R241, decision
D11; log 15). -/
def Raise.divisorZero (c : Operand) : Raise :=
  { cause := .invalidOperand, subCause := some .divisorZero,
    operands := [operandEntry .c c (some 0)] }

/-- MOD (rule R172): the divisor-zero test stands between the sources and the destination. -/
def execMod (a b c : Operand) (s : State) : Result :=
  complete .mod s do
    let vb ← rd s .b b
    let vc ← rd s .c c
    if vc = 0 then .error (Raise.divisorZero c)
    else do
      let d ← destok .a a
      .ok ((s.wr d (modResult vb vc)).advance .mod)

end Sys2Proof.Machine
end

