-- ==== Sys2Proof/Machine/CallReturn.lean ====
section
/-! DEFINITION. CALL and RET (48_call_return.md). -/

namespace Sys2Proof.Machine

/-- The return address `pc + 2` (rule R200). CALL's operand word was fetched from 32767 or below, so
the sum does not wrap in a step (log 8). -/
def returnAddress (s : State) : Word := s.pc + BitVec.ofNat 16 (opLength .call)

/-- CALL (rule R200): the target is resolved before the push. -/
def execCall (a : Operand) (s : State) : Result :=
  complete .call s do
    let t ← rd s .a a
    stackRoom s
    .ok ((s.push (returnAddress s)).setPc t)

/-- RET (rule R201): on an empty stack a defined halt, pc kept (decision D14, log 18). -/
def execRet (s : State) : Result :=
  match s.pop? with
  | none => .next (s.setRs .halted)
  | some (v, t) => .next (t.setPc v)

end Sys2Proof.Machine
end

