-- ==== Sys2Proof/Machine/Compare.lean ====
section
/-! DEFINITION. EQ and GT (43_compare.md): unsigned, on whole `W16` values, no reduction. -/

namespace Sys2Proof.Machine

/-- EQ's result (rule R150). -/
def eqResult (vb vc : Word) : Word := truthWord (vb == vc)

/-- GT's result (rule R151): strictly greater, unsigned. -/
def gtResult (vb vc : Word) : Word := truthWord (decide (vb.toNat > vc.toNat))

/-- EQ (rule R150). -/
def execEq (a b c : Operand) (s : State) : Result := binaryResult .eq eqResult a b c s

/-- GT (rule R151). -/
def execGt (a b c : Operand) (s : State) : Result := binaryResult .gt gtResult a b c s

end Sys2Proof.Machine
end

