-- ==== Sys2Proof/Machine/HaltNoop.lean ====
section
/-! DEFINITION. HALT and NOOP (41_halt_noop.md). -/

namespace Sys2Proof.Machine

/-- HALT (rule R130): `RS <- Halted`; pc keeps the address of the HALT (decision D14, log 18). -/
def execHalt (s : State) : Result := .next (s.setRs .halted)

/-- NOOP (rule R131): nothing but the advance. -/
def execNoop (s : State) : Result := .next (s.advance .noop)

end Sys2Proof.Machine
end

