-- ==== Sys2Proof/Machine/InputOutput.lean ====
section
/-! DEFINITION. OUT and IN (49_io.md). -/

namespace Sys2Proof.Machine

/-- OUT (rule R210): the whole resolved value is emitted. -/
def execOut (a : Operand) (s : State) : Result :=
  complete .out s do
    let v ← rd s .a a
    .ok ((s.emit v).advance .out)

/-- IN (rule R211): the destination is tested before any suspension (decision D13, log 17); on an
empty queue only the run state changes. -/
def execInp (a : Operand) (s : State) : Result :=
  complete .inp s do
    let d ← destok .a a
    match s.deq? with
    | none => .ok (s.setRs .awaitingInput)
    | some (v, t) => .ok ((t.wr d v).advance .inp)

end Sys2Proof.Machine
end

