-- ==== Sys2Proof/Machine/Jumps.lean ====
section
/-! DEFINITION. JMP, JT, JF (44_jumps.md): absolute targets, unreduced and unchecked. -/

namespace Sys2Proof.Machine

/-- JMP (rule R160). -/
def execJmp (a : Operand) (s : State) : Result :=
  complete .jmp s do
    let t ← rd s .a a
    .ok (s.setPc t)

/-- JT (rule R161): jumps if the condition is not 0. -/
def execJt (a b : Operand) (s : State) : Result := conditionalJump .jt nonZero a b s

/-- JF (rule R162): jumps if the condition is 0. -/
def execJf (a b : Operand) (s : State) : Result := conditionalJump .jf (fun v => !nonZero v) a b s

end Sys2Proof.Machine
end

