-- ==== Sys2Proof/Machine/Logical.lean ====
section
/-! DEFINITION. AND, OR, NOT (46_logical.md). AND and OR work on all 16 bits, unreduced; NOT is the
15-bit complement (decision D21, log 20). -/

namespace Sys2Proof.Machine

/-- AND's result (rule R180). -/
def andResult (vb vc : Word) : Word := vb &&& vc

/-- OR's result (rule R181). -/
def orResult (vb vc : Word) : Word := vb ||| vc

/-- NOT's result (rule R182). -/
def notResult (vb : Word) : Word := BitVec.ofNat 16 (32767 - vb.toNat % Config.modulus)

/-- AND (rule R180). -/
def execAnd (a b c : Operand) (s : State) : Result := binaryResult .and andResult a b c s

/-- OR (rule R181). -/
def execOr (a b c : Operand) (s : State) : Result := binaryResult .or orResult a b c s

/-- NOT (rule R182). -/
def execNot (a b : Operand) (s : State) : Result := unaryResult .not notResult a b s

end Sys2Proof.Machine
end

