-- ==== Sys2Proof/Machine/MemoryAccess.lean ====
section
/-! DEFINITION. RMEM and WMEM (47_memory_access.md). The address is a resolved value and is not
resolved a second time (20_memory.md rule R51). -/

namespace Sys2Proof.Machine

/-- RMEM (rule R190): the cell is copied whole. -/
def execRmem (a b : Operand) (s : State) : Result :=
  complete .rmem s do
    let addr ← rd s .b b
    let v ← memRead s [operandEntry .b b (some addr)] addr.toNat
    let d ← destok .a a
    .ok ((s.wr d v).advance .rmem)

/-- WMEM (rule R191): both operands are sources. -/
def execWmem (a b : Operand) (s : State) : Result :=
  complete .wmem s do
    let addr ← rd s .a a
    let v ← rd s .b b
    let t ← memWrite s [operandEntry .a a (some addr)] addr.toNat v
    .ok (t.advance .wmem)

end Sys2Proof.Machine
end

