-- ==== Sys2Proof/Machine/MoveStack.lean ====
section
/-! DEFINITION. SET, PUSH, POP (42_move_stack.md). -/

namespace Sys2Proof.Machine

/-- SET (rule R140): the value is copied whole. -/
def execSet (a b : Operand) (s : State) : Result := unaryResult .set (fun v => v) a b s

/-- PUSH (rule R141). -/
def execPush (a : Operand) (s : State) : Result :=
  complete .push s do
    let v ← rd s .a a
    stackRoom s
    .ok ((s.push v).advance .push)

/-- StackUnderflow (60_exceptions.md rule R242): records POP's destination word (rule R240). -/
def Raise.stackUnderflow (a : Operand) : Raise :=
  { cause := .stackUnderflow, subCause := none, operands := [operandEntry .a a none] }

/-- POP (rule R142): the empty-stack test, then `destok`, then the pop and the write together. -/
def execPop (a : Operand) (s : State) : Result :=
  complete .pop s
    (match s.pop? with
    | none => .error (Raise.stackUnderflow a)
    | some (v, t) => do
      let d ← destok .a a
      .ok ((t.wr d v).advance .pop))

end Sys2Proof.Machine
end

