-- ==== Sys2Proof/Machine/Trace.lean ====
section
/-! DEFINITION. The trace sink (40_cycle_and_operands.md rule R104, 60_exceptions.md rule R255). A
record is built without raising. The resolved value of a destination word, of an invalid word and of
an untaken jump's target is not given by the spec and is left out of the record (log 6). -/

namespace Sys2Proof.Machine

/-- A source operand in a trace record. -/
def traceSource (s : State) (o : Operand) : TraceOperand :=
  { raw := encodeOperand o, value := resolve s o }

/-- An operand whose resolved value the spec does not give. -/
def traceRaw (o : Operand) : TraceOperand := { raw := encodeOperand o, value := none }

/-- A jump's target: it has a resolved value when the jump is taken. -/
def traceTarget (s : State) (taken : Bool) (o : Operand) : TraceOperand :=
  if taken then traceSource s o else traceRaw o

/-- Whether the condition operand makes JT jump; `none` if its word is invalid. -/
def traceCondition (s : State) (o : Operand) : Option Bool := (resolve s o).map nonZero

/-- The operands of a trace record, in the order `a b c`, by their roles (30_encoding.md rule
R85). -/
def traceOperands (s : State) : Instr → List TraceOperand
  | .halt => []
  | .set a b => [traceRaw a, traceSource s b]
  | .push a => [traceSource s a]
  | .pop a => [traceRaw a]
  | .eq a b c => [traceRaw a, traceSource s b, traceSource s c]
  | .gt a b c => [traceRaw a, traceSource s b, traceSource s c]
  | .jmp a => [traceSource s a]
  | .jt a b => [traceSource s a, traceTarget s (traceCondition s a == some true) b]
  | .jf a b => [traceSource s a, traceTarget s (traceCondition s a == some false) b]
  | .add a b c => [traceRaw a, traceSource s b, traceSource s c]
  | .mult a b c => [traceRaw a, traceSource s b, traceSource s c]
  | .mod a b c => [traceRaw a, traceSource s b, traceSource s c]
  | .and a b c => [traceRaw a, traceSource s b, traceSource s c]
  | .or a b c => [traceRaw a, traceSource s b, traceSource s c]
  | .not a b => [traceRaw a, traceSource s b]
  | .rmem a b => [traceRaw a, traceSource s b]
  | .wmem a b => [traceSource s a, traceSource s b]
  | .call a => [traceSource s a]
  | .ret => []
  | .out a => [traceSource s a]
  | .inp a => [traceRaw a]
  | .noop => []

/-- The trace record of the instruction about to execute. -/
def traceRecord (s : State) (i : Instr) : TraceRecord :=
  { op := i.op, pc := s.pc, operands := traceOperands s i }

/-- The state in which an instruction executes: with its trace record emitted if `TRACE_EN = 1`
(40_cycle_and_operands.md rule R104). -/
def State.traced (s : State) (i : Instr) : State :=
  if s.traceEn then s.addTrace (traceRecord s i) else s

end Sys2Proof.Machine
end

