-- ==== Sys2Proof/Machine/Cycle.lean ====
section
/-! DEFINITION. The fetch-decode-execute cycle (40_cycle_and_operands.md rules R100 to R106). -/

namespace Sys2Proof.Machine

/-- Word `k` of the instruction at `pc`: `MemRead(pc + k, 1)`. The address does not wrap
(40_cycle_and_operands.md rule R103). -/
def fetchWord (s : State) (k : Nat) : Check Word := memRead s [] (s.pc.toNat + k)

/-- Fetch and decode (rules R101 to R103): the opcode word, the unknown opcode, the operand words in
ascending order. -/
def fetch (s : State) : Check Instr := decodeFrom (fetchWord s) (fun _ => Raise.unknownOpcode)

/-- The fetched opcode word, absent if its fetch failed (60_exceptions.md rule R249). -/
def fetchedOpcode (s : State) : Option Word := (fetchWord s 0).toOption

/-- One cycle of a Running core (rule R100). -/
def cycle (s : State) : Result :=
  match fetch s with
  | .error e => .next (s.raise (fetchedOpcode s) e)
  | .ok i => exec i (s.traced i)

end Sys2Proof.Machine
end

