-- ==== Sys2Proof/Machine/Image.lean ====
section
/-! DEFINITION. Reset with a program image (20_memory.md rules R54 to R56, 10_state.md rule R41,
70_reset_and_hazards.md rule R280). -/

namespace Sys2Proof.Machine

/-- The cells of a word list, the first at address `addr`. -/
def cellsFrom (addr : Nat) : List Word → Memory
  | [] => []
  | w :: ws => (addr, w) :: cellsFrom (addr + 1) ws

/-- `MEM[i] = IMAGE[i]` for `i < L`, undefined elsewhere (10_state.md rule R41). -/
def imageMemory (image : List Word) : Memory := cellsFrom 0 image

/-- A line as it enters the queue: its codes and one terminator (49_io.md rule R215). -/
def expandLine (line : List Word) : List Word := line ++ [Config.terminator]

/-- `PRESEED` of the lines of a session log (49_io.md rule R217). -/
def preseedOf (lines : List (List Word)) : List Word := lines.flatMap expandLine

/-- Reset with an image, a preseed, the parameters of the run and the host's moves to come. An image
of more than 32768 words is refused (20_memory.md rule R56). -/
def boot (p : Config.Params) (image preseed : List Word) (host : List HostAction) : Result :=
  if Config.memWords < image.length then .refused .imageTooLong
  else .next { State.reset with
    mem := imageMemory image, inq := preseed, params := p, host := host }

/-- Reset with an image as bytes (20_memory.md rules R54, R55). -/
def bootBytes (p : Config.Params) (image : List Byte) (preseed : List Word)
    (host : List HostAction) : Result :=
  boot p (wordsOfBytes image) preseed host

end Sys2Proof.Machine
end

