-- ==== Sys2Proof/Machine/HostPort.lean ====
section
/-! DEFINITION. What the host can do to a suspended engine, and what it can read (49_io.md rules R214,
R218, R220, 10_state.md rule R37). Nothing else acts on the engine from outside (log 19). -/

namespace Sys2Proof.Machine

/-- SupplyLine (49_io.md rules R214, R215), while AwaitingInput. -/
def State.supplyLine (s : State) (line : List Word) : State :=
  { s with inq := s.inq ++ expandLine line, rs := .running }

/-- DebugAssist (49_io.md rule R218), while AwaitingInput: the engine still awaits a line. -/
def State.debugAssist (s : State) : State :=
  { s.setReg 7 1 with traceEn := true }

/-- The host's moves to come are replaced. -/
def State.setHost (s : State) (moves : List HostAction) : State := { s with host := moves }

/-- The host's turn in AwaitingInput: its next move, taken off the list of moves to come; with no move
to come the engine waits (60_exceptions.md rule R259; log 3). -/
def hostTurn (s : State) : Result :=
  match s.host with
  | [] => .fault .awaitingInput
  | .supplyLine line :: rest => .next ((s.setHost rest).supplyLine line)
  | .debugAssist :: rest => .next ((s.setHost rest).debugAssist)

/-- What the host gets when it reads the output: the codes emitted so far, in order. -/
def readOutput (s : State) : List Word := s.outLog

/-- What the host gets when it reads the status: `RS`, `TRACE_EN` and `pc`, and `ERR` when Faulted
(10_state.md rule R37, 49_io.md rule R220). -/
def readStatus (s : State) : HostStatus :=
  { rs := s.rs, err := if s.rs = .faulted then s.err else none, traceEn := s.traceEn, pc := s.pc }

end Sys2Proof.Machine
end

