-- ==== Sys2Proof/Machine/Step.lean ====
section
/-! DEFINITION. One step of the whole machine: the core's cycle while Running, the host's turn while
AwaitingInput, no step in the two terminal run states (10_state.md rule R31; logs 3 and 4). -/

namespace Sys2Proof.Machine

/-- One step. -/
def step (s : State) : Host.Outcome State Fault Refusal :=
  match s.rs with
  | .running => cycle s
  | .awaitingInput => hostTurn s
  | .halted => .fault .halted
  | .faulted => .fault .faulted

/-- The cells of an instruction's words, the first at `addr`; a word beyond the last cell has no
place and is left out. -/
def loadWords (m : Memory) (addr : Nat) : List Word → Memory
  | [] => m
  | w :: ws =>
    loadWords (if addr < Config.memWords then m.write addr w else m) (addr + 1) ws

/-- The state with the instruction whose bits are `w` (its bits above `nbits` 0, four words) stored at
`pc`, and Running, so that the next step fetches it (log 10). -/
def State.withFetchWord (s : State) (nbits w : Nat) : State :=
  { s with
    mem := loadWords s.mem s.pc.toNat (wordsOfBytes (tableBytes nbits w))
    rs := .running }

end Sys2Proof.Machine
end

