-- ==== Sys2Proof/Safety.lean ====
section
/-! DEFINITION. What claims about runs are stated in: the ends of a run (60_exceptions.md rule R260)
and the invariant of every state a run reaches. -/

namespace Sys2Proof.Machine

/-- A run has ended: Halted or Faulted (60_exceptions.md rule R260). -/
abbrev State.ended (s : State) : Prop := s.rs = .halted ∨ s.rs = .faulted

/-- A run has ended cleanly: Halted, "not merely stopped" (60_exceptions.md rules R251, R260). -/
abbrev State.endedCleanly (s : State) : Prop := s.rs = .halted

/-- What holds in every state a run reaches. -/
structure State.Inv (s : State) : Prop where
  /-- The memory is in canonical form, every address below 32768 (10_state.md rule R29). -/
  memory : s.mem.wf = true
  /-- A finite `STACK_DEPTH` bounds the stack (10_state.md rule R28). -/
  stack : ∀ n, s.params.stackDepth = some n → s.stack.length ≤ n
  /-- ERR has a value exactly in Faulted (10_state.md rule R34). -/
  errPresent : s.err.isSome = true ↔ s.rs = .faulted
  /-- ERR names the instruction pc addresses (60_exceptions.md rule R250). -/
  errPc : ∀ e, s.err = some e → e.pc = s.pc
  /-- The queue is empty while a line is awaited (49_io.md rule R213). -/
  waitQueue : s.rs = .awaitingInput → s.inq = []
  /-- While a line is awaited, pc addresses an IN with a valid destination (49_io.md rules R211,
  R213). -/
  waitPc : s.rs = .awaitingInput → ∃ a d, fetch s = .ok (.inp a) ∧ destOf a = some d

end Sys2Proof.Machine
end

