-- ==== Sys2Proof/Certificates/Slice0/Obligations.lean ====
section
/-! DEFINITION. The statements for the provers. A statement is about every state; where a clause rests
on a choice of the spec's own (a decision D<n>) or of the model, its docstring names it and its log
entry. `s.pc + n` is the 16-bit sum; it is the spec's sum in every state in which the instruction was
fetched (log 8). -/

namespace Sys2Proof.Machine

/-! ### The vocabulary of the statements -/

/-- `v` is what `rd` gives for the source operand `o` (40_cycle_and_operands.md rule R107). -/
def SourceIs (s : State) (o : Operand) (v : Word) : Prop :=
  match o with
  | .literal n => v.toNat = n.toNat
  | .reg r => v = s.reg r
  | .invalid _ => False

/-- The operand word is 32767 or below, or names a register (30_encoding.md rule R84). -/
def ValidWord (o : Operand) : Prop :=
  match o with
  | .invalid _ => False
  | _ => True

def SameRegs (s t : State) : Prop := ∀ q, t.reg q = s.reg q

def SameCells (s t : State) : Prop := ∀ n, t.mem.read n = s.mem.read n

/-- The destination word `o` names a place that holds `v` in `t`, and no other register and no other
cell differs from `s`. -/
def Puts (o : Operand) (v : Word) (s t : State) : Prop :=
  match o with
  | .reg r => t.reg r = v ∧ (∀ q, q ≠ r → t.reg q = s.reg q) ∧ SameCells s t
  | .literal a =>
    t.mem.read a.toNat = some v ∧ (∀ n, n ≠ a.toNat → t.mem.read n = s.mem.read n) ∧ SameRegs s t
  | .invalid _ => False

/-- Run state, debug and error state, trace, parameters and the host's list are as before. -/
structure SameStatus (s t : State) : Prop where
  rs : t.rs = s.rs
  traceEn : t.traceEn = s.traceEn
  err : t.err = s.err
  traceLog : t.traceLog = s.traceLog
  params : t.params = s.params
  host : t.host = s.host

/-- Stack, input queue and output are as before. -/
structure SameQueues (s t : State) : Prop where
  stack : t.stack = s.stack
  inq : t.inq = s.inq
  outLog : t.outLog = s.outLog

/-- `t` is `s` after an exception with the report `e`: the report is written, the run state is Faulted,
and nothing else differs (60_exceptions.md rule R249). -/
structure Raised (s t : State) (e : Err) : Prop where
  rs : t.rs = .faulted
  err : t.err = some e
  regs : SameRegs s t
  cells : SameCells s t
  pc : t.pc = s.pc
  queues : SameQueues s t
  traceEn : t.traceEn = s.traceEn
  traceLog : t.traceLog = s.traceLog
  params : t.params = s.params
  host : t.host = s.host

/-- Executing `i` in `s` takes an exception with this cause, sub-cause and operand report. -/
def TakesException (i : Instr) (s : State) (cause : Cause) (sub : Option SubCause)
    (operands : List ErrEntry) : Prop :=
  ∃ t, exec i s = .next t ∧
    Raised s t { cause := cause, subCause := sub, opcode := some (opcodeWord i.op), pc := s.pc,
                 operands := operands }

/-- Executing `i` in `s` raises InvalidOperand on the word of operand `o` in position `p`. -/
def TakesInvalid (i : Instr) (s : State) (p : Pos) (o : Operand) : Prop :=
  TakesException i s .invalidOperand none [.operand p (encodeOperand o) none]

/-- The step of `s` takes an exception in fetch or decode. -/
def StepTakes (s : State) (cause : Cause) (opcode : Option Word) (operands : List ErrEntry) : Prop :=
  ∃ t, step s = .next t ∧
    Raised s t { cause := cause, subCause := none, opcode := opcode, pc := s.pc,
                 operands := operands }

/-- The destination word of an instruction that has one (30_encoding.md rule R85). -/
def destWord : Instr → Option Operand
  | .set a _ => some a
  | .pop a => some a
  | .eq a _ _ => some a
  | .gt a _ _ => some a
  | .add a _ _ => some a
  | .mult a _ _ => some a
  | .mod a _ _ => some a
  | .and a _ _ => some a
  | .or a _ _ => some a
  | .not a _ => some a
  | .rmem a _ => some a
  | .inp a => some a
  | .halt => none
  | .push _ => none
  | .jmp _ => none
  | .jt _ _ => none
  | .jf _ _ => none
  | .wmem _ _ => none
  | .call _ => none
  | .ret => none
  | .out _ => none
  | .noop => none

/-- Registers and stack entries are below 32768 (00_scope.md rule R5, `V15`). -/
def InV15 (s : State) : Prop := (∀ q, (s.reg q).toNat < 32768) ∧ ∀ v ∈ s.stack, v.toNat < 32768

/-- The state without its trace. -/
def withoutTrace (s : State) : State := { s with traceEn := false, traceLog := [] }

end Sys2Proof.Machine

open Sys2Proof Sys2Proof.Machine

/-! ### Encoding and the program image -/

/-- Words written out from 30_encoding.md rules R81, R84, R87 (and the vectors V-A1, V-J3, V-W1, V-CR1
and others) are read as the instructions they stand for. Rests on the opcode numbers, decision D1,
log 5. -/
def Obligations.SampleWordsDecodeAsTheirInstructions : Prop :=
  decode [0#16] = .ok (.halt, []) ∧
  decode [1#16, 100#16, 7#16] = .ok (.set (.literal 100#15) (.literal 7#15), []) ∧
  decode [3#16, 32770#16] = .ok (.pop (.reg 2), []) ∧
  decode [4#16, 32768#16, 32769#16, 4#16] = .ok (.eq (.reg 0) (.reg 1) (.literal 4#15), []) ∧
  decode [7#16, 32768#16, 50#16] = .ok (.jt (.reg 0) (.literal 50#15), []) ∧
  decode [9#16, 32769#16, 32768#16, 4#16] = .ok (.add (.reg 1) (.reg 0) (.literal 4#15), []) ∧
  decode [14#16, 32775#16, 32767#16] = .ok (.not (.reg 7) (.literal 32767#15), []) ∧
  decode [16#16, 6#16, 32768#16] = .ok (.wmem (.literal 6#15) (.reg 0), []) ∧
  decode [17#16, 7#16] = .ok (.call (.literal 7#15), []) ∧
  decode [20#16, 32776#16] = .ok (.inp (.invalid 32776#16), []) ∧
  decodeBytes [0x01#8, 0x00#8, 0x00#8, 0x80#8, 0x03#8, 0x00#8] =
    .ok (.set (.reg 0) (.literal 3#15), []) ∧
  decode [22#16] = .error (.unknownOpcode 22#16)

/-- Decoding the encoding of a well-formed instruction gives it back, whatever words follow
(30_encoding.md rules R80 to R90). Holds for every opcode numbering with distinct numbers; the numbers
are decision D1, log 5. -/
def Obligations.DecodeOfEncodeGivesTheInstruction : Prop :=
  ∀ (i : Instr) (rest : List Word), i.wf = true → decode (encode i ++ rest) = .ok (i, rest)

/-- Whatever the decoder reads is well formed, and its encoding is the very words that were read: no
word has two readings and no bit is dropped. -/
def Obligations.EncodeOfDecodeGivesTheWords : Prop :=
  ∀ (ws : List Word) (i : Instr) (rest : List Word),
    decode ws = .ok (i, rest) → i.wf = true ∧ encode i ++ rest = ws

/-- Rule R83: the table of lengths, exactly 22 instructions, each length one plus the number of operands,
the length alone fixes how many words are read, and a JMP never advances pc by its length: it loads its
target, or raises and keeps pc. -/
def Obligations.InstructionLengthsAreTheTable : Prop :=
  (opLength .halt = 1 ∧ opLength .set = 3 ∧ opLength .push = 2 ∧ opLength .pop = 2 ∧
   opLength .eq = 4 ∧ opLength .gt = 4 ∧ opLength .jmp = 2 ∧ opLength .jt = 3 ∧ opLength .jf = 3 ∧
   opLength .add = 4 ∧ opLength .mult = 4 ∧ opLength .mod = 4 ∧ opLength .and = 4 ∧
   opLength .or = 4 ∧ opLength .not = 3 ∧ opLength .rmem = 3 ∧ opLength .wmem = 3 ∧
   opLength .call = 2 ∧ opLength .ret = 1 ∧ opLength .out = 2 ∧ opLength .inp = 2 ∧
   opLength .noop = 1) ∧
  (opcodeMap.length = 22 ∧ (opcodeMap.map (fun row => row.2)).Nodup ∧
   ∀ o : Op, o ∈ opcodeMap.map (fun row => row.2)) ∧
  (∀ i : Instr, opLength i.op = 1 + i.operands.length) ∧
  (∀ (ws : List Word) (i : Instr) (rest : List Word),
    decode ws = .ok (i, rest) → ws.length = opLength i.op + rest.length) ∧
  (∀ (s t : State) (a : Operand), exec (.jmp a) s = .next t →
    SourceIs s a t.pc ∨ (t.rs = .faulted ∧ t.pc = s.pc))

/-- Rule R94: for any list of words, the image load of the bytes of the words gives the words back. -/
def Obligations.ImageBytesRoundTrip : Prop :=
  ∀ ws : List Word,
    wordsOfBytes (bytesOfWords ws) = ws ∧
    (ws.length ≤ 32768 → ∀ (p : Config.Params) (preseed : List Word) (host : List HostAction),
      ∃ s, bootBytes p (bytesOfWords ws) preseed host = .next s ∧
        ∀ i : Nat, s.mem.read i = ws[i]?)

/-- Rules R54 and R55: `L = n div 2`, word `i` is `bytes[2i+1] * 256 + bytes[2i]`, reset puts word `i` in
cell `i` unvalidated, and an odd last byte contributes to no cell. -/
def Obligations.ImageLoadIsLittleEndianAndDropsAnOddByte : Prop :=
  ∀ bs : List Byte,
    (wordsOfBytes bs).length = bs.length / 2 ∧
    (∀ (i : Nat) (lo hi : Byte), bs[2 * i]? = some lo → bs[2 * i + 1]? = some hi →
      ∃ w, (wordsOfBytes bs)[i]? = some w ∧ w.toNat = hi.toNat * 256 + lo.toNat) ∧
    (bs.length / 2 ≤ 32768 →
      ∀ (p : Config.Params) (preseed : List Word) (host : List HostAction),
        ∃ s, bootBytes p bs preseed host = .next s ∧
          ∀ i : Nat, s.mem.read i = (wordsOfBytes bs)[i]?) ∧
    (∀ b : Byte, bs.length % 2 = 0 → wordsOfBytes (bs ++ [b]) = wordsOfBytes bs)

/-! ### Reset and the invariant -/

/-- The state after reset (10_state.md rule R41, whose TRACE_EN clause is marked derived there), for any
image of at most 32768 words, and the refusal of a longer one (20_memory.md rule R56, decision D3, log
12). -/
def Obligations.BootGivesTheResetState : Prop :=
  ∀ (p : Config.Params) (image preseed : List Word) (host : List HostAction),
    (image.length ≤ 32768 → ∃ s, boot p image preseed host = .next s ∧
      (∀ q, s.reg q = 0) ∧ s.pc = 0 ∧ (∀ i : Nat, s.mem.read i = image[i]?) ∧ s.stack = [] ∧
      s.inq = preseed ∧ s.rs = .running ∧ s.traceEn = false ∧ s.err = none ∧ s.outLog = [] ∧
      s.params = p ∧ s.host = host) ∧
    (32768 < image.length → boot p image preseed host = .refused .imageTooLong)

/-- The invariant holds right after reset. -/
def Obligations.ResetMeetsTheInvariant : Prop := State.reset.Inv

/-- The invariant holds after reset with any image, preseed, parameters and host. -/
def Obligations.BootMeetsTheInvariant : Prop :=
  ∀ (p : Config.Params) (image preseed : List Word) (host : List HostAction) (s : State),
    boot p image preseed host = .next s → s.Inv

/-- Every step keeps the invariant: the memory stays canonical and below 32768, a finite STACK_DEPTH
bounds the stack, ERR has a value exactly in Faulted and names the instruction at pc, and while a line
is awaited the queue is empty and pc addresses an IN with a valid destination. -/
def Obligations.EveryStepKeepsTheInvariant : Prop :=
  ∀ s t : State, s.Inv → step s = .next t → t.Inv

/-- The run-state transitions are exactly those of the table of 10_state.md rule R31 (Faulted is
decision D8, log 13). -/
def Obligations.RunStateChangesOnlyAsListed : Prop :=
  ∀ s t : State, step s = .next t →
    (s.rs = .running ∧ t.rs = .running) ∨
    (s.rs = .running ∧ t.rs = .halted ∧
      (fetch s = .ok .halt ∨ (fetch s = .ok .ret ∧ s.stack = []))) ∨
    (s.rs = .running ∧ t.rs = .awaitingInput ∧
      ∃ a, fetch s = .ok (.inp a) ∧ ValidWord a ∧ s.inq = []) ∨
    (s.rs = .running ∧ t.rs = .faulted ∧ ∃ e, Raised { s with traceLog := t.traceLog } t e) ∨
    (s.rs = .awaitingInput ∧ t.rs = .running ∧
      ∃ line rest, s.host = .supplyLine line :: rest) ∨
    (s.rs = .awaitingInput ∧ t.rs = .awaitingInput ∧ ∃ rest, s.host = .debugAssist :: rest)

/-- The core has a step exactly when Running (40_cycle_and_operands.md rule R100, 70 rule R288); in
AwaitingInput the model performs the host's next move, and waits by the name awaitingInput when there
is none; Halted and Faulted are terminal. No step refuses. The three names are the model's (logs 3,
4). -/
def Obligations.StepHasANextStateExactlyWhenListed : Prop :=
  ∀ s : State,
    (s.rs = .running → ∃ t, step s = .next t) ∧
    (s.rs = .awaitingInput → s.host ≠ [] → ∃ t, step s = .next t) ∧
    (s.rs = .awaitingInput → s.host = [] → step s = .fault .awaitingInput) ∧
    (s.rs = .halted → step s = .fault .halted) ∧
    (s.rs = .faulted → step s = .fault .faulted)

/-- No step changes the parameters of the run (70_reset_and_hazards.md rule R280), and the host's list
only loses moves that were made. -/
def Obligations.StepKeepsTheParameters : Prop :=
  ∀ s t : State, step s = .next t →
    t.params = s.params ∧
    (s.rs = .running → t.host = s.host) ∧
    (s.rs = .awaitingInput → t.host = s.host.tail)

/-! ### The cycle -/

/-- A step of a Running core executes the instruction that the words at pc decode to, in the state itself,
or with its trace record appended if TRACE_EN is 1 (40_cycle_and_operands.md rules R100 to R105). -/
def Obligations.StepExecutesTheDecodedInstruction : Prop :=
  ∀ (s : State) (ws : List Word) (i : Instr) (rest : List Word),
    s.rs = .running →
    (∀ (k : Nat) (w : Word), ws[k]? = some w → fetchWord s k = .ok w) →
    decode ws = .ok (i, rest) →
    step s = exec i (if s.traceEn then { s with traceLog := s.traceLog ++ [traceRecord s i] } else s)

/-- What a fetch that fails does (40_cycle_and_operands.md rules R101, R103, 60_exceptions.md rule R248):
opcode word first, operand words in ascending order, AddressFault above 32767 without wrap,
UnwrittenRead on an undefined cell while MEM_FILL is none, the fetched opcode word in ERR or absent.
The two faults are decisions D4 and D5, log 12; ERR is decision D8, log 13. -/
def Obligations.FailingFetchTakesItsException : Prop :=
  ∀ s : State, s.rs = .running →
    (32768 ≤ s.pc.toNat → StepTakes s .addressFault none [.address s.pc.toNat]) ∧
    (s.pc.toNat < 32768 → s.mem.read s.pc.toNat = none → s.params.memFill = none →
      StepTakes s .unwrittenRead none [.address s.pc.toNat]) ∧
    (∀ (w : Word) (o : Op) (k : Nat), fetchWord s 0 = .ok w → opOfWord w = some o →
      0 < k → k < opLength o → (∀ j, j < k → ∃ v, fetchWord s j = .ok v) →
      (32768 ≤ s.pc.toNat + k →
        StepTakes s .addressFault (some w) [.address (s.pc.toNat + k)]) ∧
      (s.pc.toNat + k < 32768 → s.mem.read (s.pc.toNat + k) = none → s.params.memFill = none →
        StepTakes s .unwrittenRead (some w) [.address (s.pc.toNat + k)]))

/-- A word of 22 or more at pc raises UnknownOpcode before any operand word is read
(60_exceptions.md rule R243), and nothing else raises it. Rests on the opcode numbers (D1, log 5) and
on ERR (D8, log 13). -/
def Obligations.UnknownOpcodeIsRaisedExactlyOnAnUndefinedOpcodeWord : Prop :=
  ∀ s : State, s.rs = .running →
    (∀ w : Word, fetchWord s 0 = .ok w → 22 ≤ w.toNat →
      StepTakes s .unknownOpcode (some w) []) ∧
    (∀ (t : State) (e : Err), s.err = none → step s = .next t → t.err = some e →
      e.cause = .unknownOpcode →
      ∃ w : Word, fetchWord s 0 = .ok w ∧ 22 ≤ w.toNat ∧ e.opcode = some w ∧ e.pc = s.pc)

/-- A step that faults has had no effect but ERR and the run state (and the trace record emitted before
execution): exceptions are precise (60_exceptions.md rules R249, R250). ERR names the instruction at pc
and its opcode word if that was fetched. Faulted and ERR are decision D8, log 13. -/
def Obligations.ExceptionsArePreciseAndReported : Prop :=
  ∀ s t : State, s.rs = .running → step s = .next t → t.rs = .faulted →
    ∃ e, Raised { s with traceLog := t.traceLog } t e ∧ e.pc = s.pc ∧
      (∀ w : Word, fetchWord s 0 = .ok w → e.opcode = some w) ∧
      ((∀ w : Word, fetchWord s 0 ≠ .ok w) → e.opcode = none) ∧
      (e.subCause ≠ none → e.cause = .invalidOperand)

/-- Rule R242: POP with an empty stack raises StackUnderflow, code 2, only POP raises it (in a whole step,
fetch included), and RET on an empty stack halts and raises nothing. That the report is left in ERR is
decision D8, log 13; the code is decision D9, log 13. -/
def Obligations.OnlyPopOnAnEmptyStackUnderflows : Prop :=
  Cause.code .stackUnderflow = 2 ∧
  (∀ (s : State) (a : Operand), s.stack = [] →
    ∃ t e, exec (.pop a) s = .next t ∧ t.rs = .faulted ∧ t.err = some e ∧
      e.cause = .stackUnderflow) ∧
  (∀ (i : Instr) (s t : State) (e : Err), s.err = none → exec i s = .next t → t.err = some e →
    e.cause = .stackUnderflow → (∃ a, i = .pop a) ∧ s.stack = []) ∧
  (∀ (s t : State) (e : Err), s.err = none → step s = .next t → t.err = some e →
    e.cause = .stackUnderflow → (∃ a, fetch s = .ok (.pop a)) ∧ s.stack = []) ∧
  (∀ s : State, s.stack = [] →
    ∃ t, exec .ret s = .next t ∧ t.rs = .halted ∧ t.err = s.err)

/-- An exception of an executing instruction has the cause the spec names for it (60_exceptions.md rules
R241 to R246), and HALT, RET and NOOP raise none. The address faults are decisions D4, D5 (log 12), the
zero divisor is D11 (log 15), the stack bound is D7 (log 2). -/
def Obligations.EveryExceptionHasItsCause : Prop :=
  ∀ (i : Instr) (s t : State) (e : Err), s.err = none → exec i s = .next t → t.err = some e →
    i ≠ .halt ∧ i ≠ .ret ∧ i ≠ .noop ∧ e.cause ≠ .unknownOpcode ∧
    (e.cause = .invalidOperand →
      (e.subCause = none ∧ ∃ w, Operand.invalid w ∈ i.operands) ∨
      (e.subCause = some .divisorZero ∧ ∃ a b c, i = .mod a b c ∧ SourceIs s c 0)) ∧
    (e.cause = .stackUnderflow → ∃ a, i = .pop a ∧ s.stack = []) ∧
    (e.cause = .addressFault →
      ∃ a b addr, ((i = .rmem a b ∧ SourceIs s b addr) ∨ (i = .wmem a b ∧ SourceIs s a addr)) ∧
        32768 ≤ addr.toNat) ∧
    (e.cause = .unwrittenRead →
      ∃ a b addr, i = .rmem a b ∧ SourceIs s b addr ∧ addr.toNat < 32768 ∧
        s.mem.read addr.toNat = none ∧ s.params.memFill = none) ∧
    (e.cause = .stackOverflow →
      ∃ a, (i = .push a ∨ i = .call a) ∧ s.params.stackDepth = some s.stack.length)

/-! ### Memory and operands -/

/-- `MemRead` and `MemWrite` (20_memory.md rules R52, R53, R61, R62, R64): which reads raise, what a read
answers, that a write defines its cell and no other, and that a later read of the cell gives the value
written. The raising cases are decisions D4 and D5, log 12. -/
def Obligations.MemoryReadsAndWritesBehave : Prop :=
  ∀ (s : State) (src : List ErrEntry) (addr : Nat),
    (32768 ≤ addr → memRead s src addr =
      .error { cause := .addressFault, subCause := none, operands := .address addr :: src }) ∧
    (addr < 32768 → ∀ w, s.mem.read addr = some w → memRead s src addr = .ok w) ∧
    (addr < 32768 → s.mem.read addr = none → ∀ w, s.params.memFill = some w →
      memRead s src addr = .ok w) ∧
    (addr < 32768 → s.mem.read addr = none → s.params.memFill = none → memRead s src addr =
      .error { cause := .unwrittenRead, subCause := none, operands := [.address addr] }) ∧
    (∀ v : Word, 32768 ≤ addr → memWrite s src addr v =
      .error { cause := .addressFault, subCause := none, operands := .address addr :: src }) ∧
    (∀ v : Word, addr < 32768 → ∃ t, memWrite s src addr v = .ok t ∧
      memRead t src addr = .ok v ∧ (∀ n, n ≠ addr → t.mem.read n = s.mem.read n) ∧
      t = { s with mem := t.mem })

/-- Rule R107, `rd` on every word: a literal is itself, a register reference is the register's content and
is not resolved again, a word of 32776 or more raises InvalidOperand; memory is not read. -/
def Obligations.SourceWordsResolveByClass : Prop :=
  ∀ (s : State) (p : Pos) (w : Word),
    (w.toNat < 32768 → rd s p (decodeOperand w) = .ok w) ∧
    (∀ r : Fin 8, w.toNat = 32768 + r.val → rd s p (decodeOperand w) = .ok (s.reg r)) ∧
    (32776 ≤ w.toNat → ∃ e, rd s p (decodeOperand w) = .error e ∧ e.cause = .invalidOperand ∧
      e.operands = [.operand p w none]) ∧
    (∀ m : Memory, rd { s with mem := m } p (decodeOperand w) = rd s p (decodeOperand w))

/-- Rule R108, `destok` and `wr` on every word: a word below 32768 writes that memory cell, a register
reference writes that register, never both, all 16 bits, nothing else; a word of 32776 or more raises
InvalidOperand. -/
def Obligations.DestinationWordsWriteOnePlace : Prop :=
  ∀ (s : State) (p : Pos) (w v : Word),
    (w.toNat < 32768 → ∃ d, destok p (decodeOperand w) = .ok d ∧
      (s.wr d v).mem.read w.toNat = some v ∧
      (∀ n, n ≠ w.toNat → (s.wr d v).mem.read n = s.mem.read n) ∧ SameRegs s (s.wr d v) ∧
      SameQueues s (s.wr d v) ∧ SameStatus s (s.wr d v) ∧ (s.wr d v).pc = s.pc) ∧
    (∀ r : Fin 8, w.toNat = 32768 + r.val → ∃ d, destok p (decodeOperand w) = .ok d ∧
      (s.wr d v).reg r = v ∧ (∀ q, q ≠ r → (s.wr d v).reg q = s.reg q) ∧
      SameCells s (s.wr d v) ∧ SameQueues s (s.wr d v) ∧ SameStatus s (s.wr d v) ∧
      (s.wr d v).pc = s.pc) ∧
    (32776 ≤ w.toNat → ∃ e, destok p (decodeOperand w) = .error e ∧ e.cause = .invalidOperand ∧
      e.operands = [.operand p w none])

/-- Memory changes only in the cell a destination word names or in the cell WMEM's address value
names, HALT, PUSH, JMP, JT, JF, CALL, RET, OUT and NOOP change none, and no instruction but RMEM
depends on memory once it is fetched (20_memory.md rule R69). -/
def Obligations.OnlyListedInstructionsReachMemory : Prop :=
  (∀ (i : Instr) (s t : State) (n : Nat), exec i s = .next t → t.mem.read n ≠ s.mem.read n →
    (∃ c, destWord i = some (.literal c) ∧ n = c.toNat) ∨
    (∃ a b addr, i = .wmem a b ∧ SourceIs s a addr ∧ n = addr.toNat)) ∧
  (∀ (i : Instr) (s t : State) (m : Memory), i.op ≠ .rmem → exec i s = .next t →
    ∃ u, exec i { s with mem := m } = .next u ∧ { u with mem := t.mem } = t)

/-- Stack, queue and output change only in the instructions the spec names (10_state.md rules R27, R30,
49_io.md rule R212), an output code is only ever appended, and no instruction touches TRACE_EN, the
trace, the parameters or the host's list. -/
def Obligations.OnlyListedInstructionsTouchStackQueueAndOutput : Prop :=
  ∀ (i : Instr) (s t : State), exec i s = .next t →
    (i.op ≠ .push → i.op ≠ .pop → i.op ≠ .call → i.op ≠ .ret → t.stack = s.stack) ∧
    (i.op ≠ .inp → t.inq = s.inq) ∧
    (i.op ≠ .out → t.outLog = s.outLog) ∧
    (t.outLog = s.outLog ∨ ∃ v, t.outLog = s.outLog ++ [v]) ∧
    (t.inq = s.inq ∨ ∃ v, s.inq = v :: t.inq) ∧
    t.traceEn = s.traceEn ∧ t.traceLog = s.traceLog ∧ t.params = s.params ∧ t.host = s.host

/-- How an instruction leaves pc (10_state.md rules R24, R25): a jump taken, a call and a return set it,
every other completed instruction adds its length, and HALT, RET on an empty stack, an IN that suspends
and an instruction that raises keep it. The kept pc is decision D14, log 18. -/
def Obligations.ProgramCounterChangesOnlyAsListed : Prop :=
  ∀ (i : Instr) (s t : State), exec i s = .next t →
    (t.rs = .faulted ∧ t.pc = s.pc) ∨
    ((i = .halt ∨ (i = .ret ∧ s.stack = []) ∨ (i.op = .inp ∧ s.inq = [])) ∧ t.pc = s.pc) ∨
    (∃ a, (i = .jmp a ∨ i = .call a) ∧ SourceIs s a t.pc) ∨
    (∃ l, i = .ret ∧ s.stack = l ++ [t.pc]) ∨
    (∃ a b va, i = .jt a b ∧ SourceIs s a va ∧ va ≠ 0 ∧ SourceIs s b t.pc) ∨
    (∃ a b va, i = .jf a b ∧ SourceIs s a va ∧ va = 0 ∧ SourceIs s b t.pc) ∨
    (∃ a b va, i = .jt a b ∧ SourceIs s a va ∧ va = 0 ∧ t.pc = s.pc + 3) ∨
    (∃ a b va, i = .jf a b ∧ SourceIs s a va ∧ va ≠ 0 ∧ t.pc = s.pc + 3) ∨
    (i.op ≠ .halt ∧ i.op ≠ .ret ∧ i.op ≠ .jmp ∧ i.op ≠ .call ∧ i.op ≠ .jt ∧ i.op ≠ .jf ∧
      t.pc = s.pc + BitVec.ofNat 16 (opLength i.op))

/-! ### What each instruction does -/

/-- HALT (41_halt_noop.md rule R130) enters Halted and changes nothing else; that pc is kept is decision
D14, log 18. -/
def Obligations.HaltEntersHaltedAndChangesNothingElse : Prop :=
  ∀ s : State, ∃ t, exec .halt s = .next t ∧ t.rs = .halted ∧ t.pc = s.pc ∧
    SameRegs s t ∧ SameCells s t ∧ SameQueues s t ∧ SameStatus s { t with rs := s.rs }

/-- NOOP (41_halt_noop.md rule R131) adds 1 to pc and changes nothing else. -/
def Obligations.NoopOnlyAdvances : Prop :=
  ∀ s : State, ∃ t, exec .noop s = .next t ∧ t.pc = s.pc + 1 ∧
    SameRegs s t ∧ SameCells s t ∧ SameQueues s t ∧ SameStatus s t

/-- SET (42_move_stack.md rule R140) copies its source whole into its destination. -/
def Obligations.SetCopiesTheSourceWhole : Prop :=
  ∀ (s : State) (a b : Operand) (v : Word), SourceIs s b v → ValidWord a →
    ∃ t, exec (.set a b) s = .next t ∧ Puts a v s t ∧ t.pc = s.pc + 3 ∧
      SameQueues s t ∧ SameStatus s t

/-- PUSH (42_move_stack.md rule R141) puts its source on top of the stack, whenever the stack is unbounded
or not full. -/
def Obligations.PushPutsTheSourceOnTop : Prop :=
  ∀ (s : State) (a : Operand) (v : Word), SourceIs s a v →
    s.params.stackDepth ≠ some s.stack.length →
    ∃ t, exec (.push a) s = .next t ∧ t.stack = s.stack ++ [v] ∧ t.pc = s.pc + 2 ∧
      t.inq = s.inq ∧ t.outLog = s.outLog ∧ SameRegs s t ∧ SameCells s t ∧ SameStatus s t

/-- POP (42_move_stack.md rule R142) moves the top of the stack into its destination. -/
def Obligations.PopMovesTheTopToItsDestination : Prop :=
  ∀ (s : State) (a : Operand) (l : List Word) (v : Word), s.stack = l ++ [v] → ValidWord a →
    ∃ t, exec (.pop a) s = .next t ∧ Puts a v s t ∧ t.stack = l ∧ t.pc = s.pc + 2 ∧
      t.inq = s.inq ∧ t.outLog = s.outLog ∧ SameStatus s t

/-- EQ and GT (43_compare.md rules R150, R151) write 1 or 0 by an unsigned comparison of the whole values,
also when the destination is a source. -/
def Obligations.EqAndGtWriteTheUnsignedComparison : Prop :=
  ∀ (s : State) (a b c : Operand) (vb vc : Word),
    SourceIs s b vb → SourceIs s c vc → ValidWord a →
    (∃ t, exec (.eq a b c) s = .next t ∧
      Puts a (if vb.toNat = vc.toNat then 1 else 0) s t ∧ t.pc = s.pc + 4 ∧
      SameQueues s t ∧ SameStatus s t) ∧
    (∃ t, exec (.gt a b c) s = .next t ∧
      Puts a (if vc.toNat < vb.toNat then 1 else 0) s t ∧ t.pc = s.pc + 4 ∧
      SameQueues s t ∧ SameStatus s t)

/-- JMP (44_jumps.md rule R160) loads its source into pc, unreduced and unchecked. -/
def Obligations.JmpLoadsTheTarget : Prop :=
  ∀ (s : State) (a : Operand) (v : Word), SourceIs s a v →
    ∃ t, exec (.jmp a) s = .next t ∧ t.pc = v ∧
      SameRegs s t ∧ SameCells s t ∧ SameQueues s t ∧ SameStatus s t

/-- JT and JF (44_jumps.md rules R161, R162) jump on a non-zero and a zero condition, else add 3 to pc
without looking at the target word (decision D12, log 16). -/
def Obligations.JtAndJfJumpOnTheCondition : Prop :=
  ∀ (s : State) (a b : Operand) (va : Word), SourceIs s a va →
    (∀ vb, va ≠ 0 → SourceIs s b vb →
      ∃ t, exec (.jt a b) s = .next t ∧ t.pc = vb ∧
        SameRegs s t ∧ SameCells s t ∧ SameQueues s t ∧ SameStatus s t) ∧
    (va = 0 → ∃ t, exec (.jt a b) s = .next t ∧ t.pc = s.pc + 3 ∧
        SameRegs s t ∧ SameCells s t ∧ SameQueues s t ∧ SameStatus s t) ∧
    (∀ vb, va = 0 → SourceIs s b vb →
      ∃ t, exec (.jf a b) s = .next t ∧ t.pc = vb ∧
        SameRegs s t ∧ SameCells s t ∧ SameQueues s t ∧ SameStatus s t) ∧
    (va ≠ 0 → ∃ t, exec (.jf a b) s = .next t ∧ t.pc = s.pc + 3 ∧
        SameRegs s t ∧ SameCells s t ∧ SameQueues s t ∧ SameStatus s t)

/-- ADD and MULT (45_arithmetic.md rules R170, R171) write the exact sum and product modulo 32768, operands
taken whole. -/
def Obligations.AddAndMultWriteTheExactResultModulo32768 : Prop :=
  ∀ (s : State) (a b c : Operand) (vb vc : Word),
    SourceIs s b vb → SourceIs s c vc → ValidWord a →
    (∃ t v, exec (.add a b c) s = .next t ∧ v.toNat = (vb.toNat + vc.toNat) % 32768 ∧
      Puts a v s t ∧ t.pc = s.pc + 4 ∧ SameQueues s t ∧ SameStatus s t) ∧
    (∃ t v, exec (.mult a b c) s = .next t ∧ v.toNat = (vb.toNat * vc.toNat) % 32768 ∧
      Puts a v s t ∧ t.pc = s.pc + 4 ∧ SameQueues s t ∧ SameStatus s t)

/-- MOD (45_arithmetic.md rule R172) with a divisor other than 0 writes the remainder, reduced modulo
32768. -/
def Obligations.ModWritesTheRemainder : Prop :=
  ∀ (s : State) (a b c : Operand) (vb vc : Word),
    SourceIs s b vb → SourceIs s c vc → vc ≠ 0 → ValidWord a →
    ∃ t v, exec (.mod a b c) s = .next t ∧ v.toNat = (vb.toNat % vc.toNat) % 32768 ∧
      Puts a v s t ∧ t.pc = s.pc + 4 ∧ SameQueues s t ∧ SameStatus s t

/-- AND and OR (46_logical.md rules R180, R181) work bit by bit on all 16 bits; that nothing is reduced is
decision D21, log 20. -/
def Obligations.AndAndOrWorkOnAllSixteenBits : Prop :=
  ∀ (s : State) (a b c : Operand) (vb vc : Word),
    SourceIs s b vb → SourceIs s c vc → ValidWord a →
    (∃ t v, exec (.and a b c) s = .next t ∧
      (∀ k, k < 16 → v.toNat.testBit k = (vb.toNat.testBit k && vc.toNat.testBit k)) ∧
      Puts a v s t ∧ t.pc = s.pc + 4 ∧ SameQueues s t ∧ SameStatus s t) ∧
    (∃ t v, exec (.or a b c) s = .next t ∧
      (∀ k, k < 16 → v.toNat.testBit k = (vb.toNat.testBit k || vc.toNat.testBit k)) ∧
      Puts a v s t ∧ t.pc = s.pc + 4 ∧ SameQueues s t ∧ SameStatus s t)

/-- NOT (46_logical.md rule R182) writes the 15-bit complement: bits 0 to 14 are inverted, bit 15 is 0
whatever bit 15 of the source is (decision D21, log 20). -/
def Obligations.NotInvertsFifteenBits : Prop :=
  ∀ (s : State) (a b : Operand) (vb : Word), SourceIs s b vb → ValidWord a →
    ∃ t v, exec (.not a b) s = .next t ∧ v.toNat = 32767 - vb.toNat % 32768 ∧
      (∀ k, k < 15 → v.toNat.testBit k = !vb.toNat.testBit k) ∧ v.toNat.testBit 15 = false ∧
      Puts a v s t ∧ t.pc = s.pc + 3 ∧ SameQueues s t ∧ SameStatus s t

/-- RMEM (47_memory_access.md rule R190) copies the addressed cell whole into its destination: a defined
cell, or an undefined one where MEM_FILL gives it a value (decision D4, log 12). -/
def Obligations.RmemCopiesTheAddressedCell : Prop :=
  ∀ (s : State) (a b : Operand) (addr v : Word),
    SourceIs s b addr → addr.toNat < 32768 → ValidWord a →
    (s.mem.read addr.toNat = some v ∨
      (s.mem.read addr.toNat = none ∧ s.params.memFill = some v)) →
    ∃ t, exec (.rmem a b) s = .next t ∧ Puts a v s t ∧ t.pc = s.pc + 3 ∧
      SameQueues s t ∧ SameStatus s t

/-- WMEM (47_memory_access.md rule R191) stores its second source whole in the cell its first source
addresses, and writes no register and no other cell. -/
def Obligations.WmemStoresInTheAddressedCell : Prop :=
  ∀ (s : State) (a b : Operand) (addr v : Word),
    SourceIs s a addr → SourceIs s b v → addr.toNat < 32768 →
    ∃ t, exec (.wmem a b) s = .next t ∧ t.mem.read addr.toNat = some v ∧
      (∀ n, n ≠ addr.toNat → t.mem.read n = s.mem.read n) ∧ SameRegs s t ∧
      t.pc = s.pc + 3 ∧ SameQueues s t ∧ SameStatus s t

/-- CALL (48_call_return.md rule R200) pushes pc + 2, unreduced, and jumps, whenever the stack is unbounded
or not full. -/
def Obligations.CallPushesTheReturnAddressAndJumps : Prop :=
  ∀ (s : State) (a : Operand) (v : Word), SourceIs s a v →
    s.params.stackDepth ≠ some s.stack.length →
    ∃ t ra, exec (.call a) s = .next t ∧ t.pc = v ∧ t.stack = s.stack ++ [ra] ∧
      (s.pc.toNat ≤ 32766 → ra.toNat = s.pc.toNat + 2) ∧
      t.inq = s.inq ∧ t.outLog = s.outLog ∧ SameRegs s t ∧ SameCells s t ∧ SameStatus s t

/-- RET (48_call_return.md rule R201) pops pc from the stack, and on an empty stack enters Halted; that pc
is kept there is decision D14, log 18. -/
def Obligations.RetPopsTheProgramCounterOrHalts : Prop :=
  ∀ s : State,
    (∀ (l : List Word) (v : Word), s.stack = l ++ [v] →
      ∃ t, exec .ret s = .next t ∧ t.pc = v ∧ t.stack = l ∧ t.inq = s.inq ∧ t.outLog = s.outLog ∧
        SameRegs s t ∧ SameCells s t ∧ SameStatus s t) ∧
    (s.stack = [] →
      ∃ t, exec .ret s = .next t ∧ t.rs = .halted ∧ t.pc = s.pc ∧
        SameRegs s t ∧ SameCells s t ∧ SameQueues s t ∧ SameStatus s { t with rs := s.rs })

/-- OUT (49_io.md rules R210, R212) appends its source, whole, to the output. -/
def Obligations.OutEmitsTheSourceWhole : Prop :=
  ∀ (s : State) (a : Operand) (v : Word), SourceIs s a v →
    ∃ t, exec (.out a) s = .next t ∧ t.outLog = s.outLog ++ [v] ∧ t.pc = s.pc + 2 ∧
      t.stack = s.stack ∧ t.inq = s.inq ∧ SameRegs s t ∧ SameCells s t ∧ SameStatus s t

/-- IN (49_io.md rule R211) moves the head of the queue, whole, into its destination. -/
def Obligations.InMovesTheHeadOfTheQueue : Prop :=
  ∀ (s : State) (a : Operand) (v : Word) (q : List Word), s.inq = v :: q → ValidWord a →
    ∃ t, exec (.inp a) s = .next t ∧ Puts a v s t ∧ t.inq = q ∧ t.pc = s.pc + 2 ∧
      t.stack = s.stack ∧ t.outLog = s.outLog ∧ SameStatus s t

/-- IN on an empty queue (49_io.md rules R211, R213) suspends: only the run state changes. -/
def Obligations.InOnAnEmptyQueueSuspends : Prop :=
  ∀ (s : State) (a : Operand), s.inq = [] → ValidWord a →
    ∃ t, exec (.inp a) s = .next t ∧ t.rs = .awaitingInput ∧ t.pc = s.pc ∧
      SameRegs s t ∧ SameCells s t ∧ SameQueues s t ∧ SameStatus s { t with rs := s.rs }

/-! ### What each instruction raises, in the order of its checks -/

/-- EQ, GT, ADD, MULT, AND, OR: an invalid word raises in the order `b`, `c`, `a`. The order is decision
D10, log 14; ERR is D8, log 13. -/
def Obligations.ThreeOperandInstructionsCheckSourcesThenDestination : Prop :=
  ∀ (i : Instr) (s : State) (a b c : Operand),
    (i = .eq a b c ∨ i = .gt a b c ∨ i = .add a b c ∨ i = .mult a b c ∨ i = .and a b c ∨
      i = .or a b c) →
    (¬ ValidWord b → TakesInvalid i s .b b) ∧
    (ValidWord b → ¬ ValidWord c → TakesInvalid i s .c c) ∧
    (ValidWord b → ValidWord c → ¬ ValidWord a → TakesInvalid i s .a a)

/-- MOD: the sources `b`, `c`, then the zero divisor with its sub-cause and resolved value, then the
destination (45_arithmetic.md rule R172). The zero divisor is decision D11, log 15; the order is D10,
log 14; ERR is D8, log 13. -/
def Obligations.ModChecksSourcesDivisorThenDestination : Prop :=
  ∀ (s : State) (a b c : Operand),
    (¬ ValidWord b → TakesInvalid (.mod a b c) s .b b) ∧
    (ValidWord b → ¬ ValidWord c → TakesInvalid (.mod a b c) s .c c) ∧
    (ValidWord b → SourceIs s c 0 →
      TakesException (.mod a b c) s .invalidOperand (some .divisorZero)
        [.operand .c (encodeOperand c) (some 0)]) ∧
    (∀ vc, ValidWord b → SourceIs s c vc → vc ≠ 0 → ¬ ValidWord a →
      TakesInvalid (.mod a b c) s .a a)

/-- SET and NOT: an invalid word raises in the order `b`, `a`. The order is decision D10, log 14; ERR is
D8, log 13. -/
def Obligations.SetAndNotCheckTheSourceThenTheDestination : Prop :=
  ∀ (i : Instr) (s : State) (a b : Operand), (i = .set a b ∨ i = .not a b) →
    (¬ ValidWord b → TakesInvalid i s .b b) ∧
    (ValidWord b → ¬ ValidWord a → TakesInvalid i s .a a)

/-- PUSH, JMP, CALL and OUT raise InvalidOperand on an invalid word, and then push, jump and emit
nothing; JT and JF raise on the condition, and on the target only when the jump is taken (decision D12,
log 16). ERR is decision D8, log 13. -/
def Obligations.SourceOnlyInstructionsRaiseOnAnInvalidWord : Prop :=
  ∀ (s : State) (a b : Operand),
    (¬ ValidWord a →
      TakesInvalid (.push a) s .a a ∧ TakesInvalid (.jmp a) s .a a ∧
      TakesInvalid (.call a) s .a a ∧ TakesInvalid (.out a) s .a a ∧
      TakesInvalid (.jt a b) s .a a ∧ TakesInvalid (.jf a b) s .a a) ∧
    (∀ va, SourceIs s a va → va ≠ 0 → ¬ ValidWord b → TakesInvalid (.jt a b) s .b b) ∧
    (∀ va, SourceIs s a va → va = 0 → ¬ ValidWord b → TakesInvalid (.jf a b) s .b b)

/-- PUSH and CALL with a valid operand raise StackOverflow when a finite STACK_DEPTH is reached (42 rule
R141, 48 rule R200; decision D7, log 2). ERR is decision D8, log 13. -/
def Obligations.PushAndCallOnAFullStackOverflow : Prop :=
  ∀ (s : State) (a : Operand), ValidWord a → s.params.stackDepth = some s.stack.length →
    TakesException (.push a) s .stackOverflow none [] ∧
    TakesException (.call a) s .stackOverflow none []

/-- POP tests the empty stack before its destination, and removes nothing when the destination is invalid
(42_move_stack.md rule R142); IN tests its destination before it suspends or takes a code (49_io.md rule
R211, decision D13, log 17). ERR is decision D8, log 13. -/
def Obligations.PopAndInRaiseBeforeAnyEffect : Prop :=
  ∀ (s : State) (a : Operand),
    (s.stack = [] →
      TakesException (.pop a) s .stackUnderflow none [.operand .a (encodeOperand a) none]) ∧
    (s.stack ≠ [] → ¬ ValidWord a → TakesInvalid (.pop a) s .a a) ∧
    (¬ ValidWord a → TakesInvalid (.inp a) s .a a)

/-- RMEM: address word, AddressFault, UnwrittenRead, destination (47_memory_access.md rule R190). A computed
address of 32768 to 32775 reaches no register. Decisions D4, D5 (log 12), D10 (log 14), D8 (log 13). -/
def Obligations.RmemRaisesInOrder : Prop :=
  ∀ (s : State) (a b : Operand),
    (¬ ValidWord b → TakesInvalid (.rmem a b) s .b b) ∧
    (∀ addr, SourceIs s b addr → 32768 ≤ addr.toNat →
      TakesException (.rmem a b) s .addressFault none
        [.address addr.toNat, .operand .b (encodeOperand b) (some addr)]) ∧
    (∀ addr, SourceIs s b addr → addr.toNat < 32768 → s.mem.read addr.toNat = none →
      s.params.memFill = none →
      TakesException (.rmem a b) s .unwrittenRead none [.address addr.toNat]) ∧
    (∀ addr v, SourceIs s b addr → memRead s [] addr.toNat = .ok v → ¬ ValidWord a →
      TakesInvalid (.rmem a b) s .a a)

/-- WMEM: address word, value word, AddressFault (47_memory_access.md rule R191). A computed address of
32768 to 32775 reaches no register. Decisions D5 (log 12), D10 (log 14), D8 (log 13). -/
def Obligations.WmemRaisesInOrder : Prop :=
  ∀ (s : State) (a b : Operand),
    (¬ ValidWord a → TakesInvalid (.wmem a b) s .a a) ∧
    (ValidWord a → ¬ ValidWord b → TakesInvalid (.wmem a b) s .b b) ∧
    (∀ addr, SourceIs s a addr → ValidWord b → 32768 ≤ addr.toNat →
      TakesException (.wmem a b) s .addressFault none
        [.address addr.toNat, .operand .a (encodeOperand a) (some addr)])

/-! ### The host, the trace, and whole-machine rules -/

/-- SupplyLine and DebugAssist (49_io.md rules R214, R215, R218): what each changes, and nothing else. When
they can happen is decisions D16, D18, D26, log 19; that the model performs the head of its list of the
host's moves is log 3. -/
def Obligations.HostMovesHaveTheirEffect : Prop :=
  ∀ (s : State) (rest : List HostAction), s.rs = .awaitingInput →
    (∀ line, s.host = .supplyLine line :: rest →
      ∃ t, step s = .next t ∧ t.rs = .running ∧ t.inq = s.inq ++ line ++ [10#16] ∧ t.pc = s.pc ∧
        SameRegs s t ∧ SameCells s t ∧ t.stack = s.stack ∧ t.outLog = s.outLog ∧
        t.host = rest ∧ SameStatus s { t with rs := s.rs, host := s.host }) ∧
    (s.host = .debugAssist :: rest →
      ∃ t, step s = .next t ∧ t.reg 7 = 1 ∧ (∀ q, q ≠ 7 → t.reg q = s.reg q) ∧
        t.traceEn = true ∧ t.pc = s.pc ∧ SameCells s t ∧ SameQueues s t ∧
        t.host = rest ∧ SameStatus s { t with traceEn := s.traceEn, host := s.host })

/-- A suspended IN that is answered leaves the engine as if the line had been there before the IN, but for
the trace and the host's list (49_io.md rule R216, decision D15; log 6). -/
def Obligations.AnsweredInputResumesAsIfTheLineHadBeenThere : Prop :=
  ∀ (s : State) (a : Operand) (line : List Word) (rest : List HostAction),
    s.rs = .running → fetch s = .ok (.inp a) → ValidWord a → s.inq = [] →
    s.host = .supplyLine line :: rest →
    ∃ t u, step s = .next t ∧ t.rs = .awaitingInput ∧ step t = .next u ∧
      u = { s with inq := line ++ [10#16], host := rest, traceLog := u.traceLog }

/-- Replay (49_io.md rule R217): a run that is given its lines live, at its suspensions, and a run that finds
the same lines already in its queue, end in the same way, with the same registers, memory, stack, pc,
output and error report, whichever of the two is known to end. From every Running state; reset is one of
them. The live lines come from the model's own list of the host's moves, `State.host`, whose head `step`
performs at a suspension: that is the model's choice, log 3. -/
def Obligations.ReplayOfTheLinesGivesTheLiveRun : Prop :=
  (∀ (s : State) (lines : List (List Word)), s.rs = .running →
    let live := { s with host := lines.map HostAction.supplyLine }
    let replay := { s with host := [], inq := s.inq ++ preseedOf lines }
    let same := fun t u : State => u.rs = t.rs ∧ u.regs = t.regs ∧ u.mem = t.mem ∧
      u.stack = t.stack ∧ u.pc = t.pc ∧ u.outLog = t.outLog ∧ u.err = t.err
    (∀ n t, Sys2Proof.core.run n live = .next t → t.ended →
      ∃ m u, Sys2Proof.core.run m replay = .next u ∧ same t u) ∧
    (∀ m u, Sys2Proof.core.run m replay = .next u → u.ended →
      ∃ n t, Sys2Proof.core.run n live = .next t ∧ same t u)) ∧
  (∀ (p : Config.Params) (image : List Word) (lines : List (List Word)) (s : State),
    boot p image (preseedOf lines) [] = .next s →
      s.inq = (lines.map (fun l => l ++ [10#16])).flatten)

/-- Values of 32768 or more enter the registers, the stack or a written cell only through a cell RMEM reads,
an input code, or a CALL at address 32766 (40_cycle_and_operands.md rule R112). -/
def Obligations.ValuesStayBelow32768WithoutTheThreeEntries : Prop :=
  ∀ s t : State, s.rs = .running → InV15 s → step s = .next t →
    (∀ a b addr v, fetch s = .ok (.rmem a b) → SourceIs s b addr →
      memRead s [] addr.toNat = .ok v → v.toNat < 32768) →
    (∀ a v q, fetch s = .ok (.inp a) → s.inq = v :: q → v.toNat < 32768) →
    (∀ a, fetch s = .ok (.call a) → s.pc.toNat ≠ 32766) →
    InV15 t ∧ ∀ n, t.mem.read n ≠ s.mem.read n → ∃ v, t.mem.read n = some v ∧ v.toNat < 32768

/-- The trace changes no state and a program cannot observe it (60_exceptions.md rule R255, 10_state.md
rule R33): two states that differ only in TRACE_EN and the trace step alike. -/
def Obligations.TraceIsInvisibleToTheMachine : Prop :=
  ∀ (s t : State) (b : Bool) (log : List TraceRecord), step s = .next t →
    ∃ u, step { s with traceEn := b, traceLog := log } = .next u ∧ withoutTrace u = withoutTrace t

/-- One record per executed instruction while TRACE_EN is 1, with the opcode, pc and each operand's raw word,
and the resolved value of every valid source but a jump's target; a value that is recorded is the
resolved one. A step that fails in fetch or decode emits none, and none is emitted while TRACE_EN is 0
(60_exceptions.md rule R255). That the values left out are absent is log 6. -/
def Obligations.TraceRecordsEveryExecutedInstruction : Prop :=
  ∀ s t : State, s.rs = .running → step s = .next t →
    (s.traceEn = false → t.traceLog = s.traceLog) ∧
    (∀ e, fetch s = .error e → t.traceLog = s.traceLog) ∧
    (∀ i, s.traceEn = true → fetch s = .ok i →
      ∃ r : TraceRecord, t.traceLog = s.traceLog ++ [r] ∧ r.op = i.op ∧ r.pc = s.pc ∧
        r.operands.map (fun o => o.raw) = i.operands.map encodeOperand ∧
        ∀ (k : Nat) (o : Operand) (x : TraceOperand) (v : Word), i.operands[k]? = some o →
          r.operands[k]? = some x →
          (x.value = some v → SourceIs s o v) ∧
          (SourceIs s o v → (k = 0 → destWord i = none) → (k = 1 → i.op ≠ .jt ∧ i.op ≠ .jf) →
            x.value = some v))

/-- CALL followed by RET in the callee returns to the instruction after the CALL with the stack as it was
(48_call_return.md rules R200, R201, R202). -/
def Obligations.CallThenRetReturnsAfterTheCall : Prop :=
  ∀ (s : State) (a : Operand) (v : Word), SourceIs s a v →
    s.params.stackDepth ≠ some s.stack.length → s.pc.toNat ≤ 32766 →
    ∃ t u, exec (.call a) s = .next t ∧ exec .ret t = .next u ∧
      u.pc.toNat = s.pc.toNat + 2 ∧ u.stack = s.stack ∧ SameRegs s u ∧ SameCells s u ∧
      u.inq = s.inq ∧ u.outLog = s.outLog ∧ SameStatus s u

/-- Laws of the results (46_logical.md rules R182, R183, 45_arithmetic.md rule R173 (6)): NOT maps every
word into V15 and is an involution on V15, De Morgan's laws hold on V15, and NOT with ADD negates and
subtracts modulo 32768. NOT of a word of 32768 or more is decision D21, log 20. -/
def Obligations.LogicalResultsObeyTheLaws : Prop :=
  (∀ v : Word, (notResult v).toNat < 32768) ∧
  (∀ v : Word, v.toNat < 32768 → notResult (notResult v) = v) ∧
  (∀ v w : Word, v.toNat < 32768 → w.toNat < 32768 →
    notResult (andResult v w) = orResult (notResult v) (notResult w) ∧
    notResult (orResult v w) = andResult (notResult v) (notResult w)) ∧
  (∀ v w : Word, addResult (addResult v (notResult v)) 1 = 0 ∧
    addResult (addResult v w) (addResult (notResult w) 1) = addResult v 0)
end

