-- ==== Sys2Proof/Laws/State.lean ====
section
/-! SUPPORT. One lemma per field per update of the state, so that no proof unfolds a record update. -/

namespace Sys2Proof.Machine

/-! ### setReg -/

@[simp] theorem State.setReg_regs (s : State) (r : Fin 8) (v : Word) :
    (s.setReg r v).regs = s.regs.set r v := rfl
@[simp] theorem State.setReg_pc (s : State) (r : Fin 8) (v : Word) : (s.setReg r v).pc = s.pc := rfl
@[simp] theorem State.setReg_mem (s : State) (r : Fin 8) (v : Word) :
    (s.setReg r v).mem = s.mem := rfl
@[simp] theorem State.setReg_stack (s : State) (r : Fin 8) (v : Word) :
    (s.setReg r v).stack = s.stack := rfl
@[simp] theorem State.setReg_inq (s : State) (r : Fin 8) (v : Word) :
    (s.setReg r v).inq = s.inq := rfl
@[simp] theorem State.setReg_rs (s : State) (r : Fin 8) (v : Word) : (s.setReg r v).rs = s.rs := rfl
@[simp] theorem State.setReg_traceEn (s : State) (r : Fin 8) (v : Word) :
    (s.setReg r v).traceEn = s.traceEn := rfl
@[simp] theorem State.setReg_err (s : State) (r : Fin 8) (v : Word) :
    (s.setReg r v).err = s.err := rfl
@[simp] theorem State.setReg_outLog (s : State) (r : Fin 8) (v : Word) :
    (s.setReg r v).outLog = s.outLog := rfl
@[simp] theorem State.setReg_traceLog (s : State) (r : Fin 8) (v : Word) :
    (s.setReg r v).traceLog = s.traceLog := rfl
@[simp] theorem State.setReg_params (s : State) (r : Fin 8) (v : Word) :
    (s.setReg r v).params = s.params := rfl
@[simp] theorem State.setReg_host (s : State) (r : Fin 8) (v : Word) :
    (s.setReg r v).host = s.host := rfl

/-! ### setPc -/

@[simp] theorem State.setPc_regs (s : State) (v : Word) : (s.setPc v).regs = s.regs := rfl
@[simp] theorem State.setPc_pc (s : State) (v : Word) : (s.setPc v).pc = v := rfl
@[simp] theorem State.setPc_mem (s : State) (v : Word) : (s.setPc v).mem = s.mem := rfl
@[simp] theorem State.setPc_stack (s : State) (v : Word) : (s.setPc v).stack = s.stack := rfl
@[simp] theorem State.setPc_inq (s : State) (v : Word) : (s.setPc v).inq = s.inq := rfl
@[simp] theorem State.setPc_rs (s : State) (v : Word) : (s.setPc v).rs = s.rs := rfl
@[simp] theorem State.setPc_traceEn (s : State) (v : Word) : (s.setPc v).traceEn = s.traceEn := rfl
@[simp] theorem State.setPc_err (s : State) (v : Word) : (s.setPc v).err = s.err := rfl
@[simp] theorem State.setPc_outLog (s : State) (v : Word) : (s.setPc v).outLog = s.outLog := rfl
@[simp] theorem State.setPc_traceLog (s : State) (v : Word) :
    (s.setPc v).traceLog = s.traceLog := rfl
@[simp] theorem State.setPc_params (s : State) (v : Word) : (s.setPc v).params = s.params := rfl
@[simp] theorem State.setPc_host (s : State) (v : Word) : (s.setPc v).host = s.host := rfl

/-! ### advance -/

@[simp] theorem State.advance_regs (s : State) (o : Op) : (s.advance o).regs = s.regs := rfl
@[simp] theorem State.advance_pc (s : State) (o : Op) :
    (s.advance o).pc = s.pc + BitVec.ofNat 16 (opLength o) := rfl
@[simp] theorem State.advance_mem (s : State) (o : Op) : (s.advance o).mem = s.mem := rfl
@[simp] theorem State.advance_stack (s : State) (o : Op) : (s.advance o).stack = s.stack := rfl
@[simp] theorem State.advance_inq (s : State) (o : Op) : (s.advance o).inq = s.inq := rfl
@[simp] theorem State.advance_rs (s : State) (o : Op) : (s.advance o).rs = s.rs := rfl
@[simp] theorem State.advance_traceEn (s : State) (o : Op) :
    (s.advance o).traceEn = s.traceEn := rfl
@[simp] theorem State.advance_err (s : State) (o : Op) : (s.advance o).err = s.err := rfl
@[simp] theorem State.advance_outLog (s : State) (o : Op) : (s.advance o).outLog = s.outLog := rfl
@[simp] theorem State.advance_traceLog (s : State) (o : Op) :
    (s.advance o).traceLog = s.traceLog := rfl
@[simp] theorem State.advance_params (s : State) (o : Op) : (s.advance o).params = s.params := rfl
@[simp] theorem State.advance_host (s : State) (o : Op) : (s.advance o).host = s.host := rfl

/-! ### storeCell -/

@[simp] theorem State.storeCell_regs (s : State) (a : Nat) (v : Word) :
    (s.storeCell a v).regs = s.regs := rfl
@[simp] theorem State.storeCell_pc (s : State) (a : Nat) (v : Word) :
    (s.storeCell a v).pc = s.pc := rfl
@[simp] theorem State.storeCell_mem (s : State) (a : Nat) (v : Word) :
    (s.storeCell a v).mem = s.mem.write a v := rfl
@[simp] theorem State.storeCell_stack (s : State) (a : Nat) (v : Word) :
    (s.storeCell a v).stack = s.stack := rfl
@[simp] theorem State.storeCell_inq (s : State) (a : Nat) (v : Word) :
    (s.storeCell a v).inq = s.inq := rfl
@[simp] theorem State.storeCell_rs (s : State) (a : Nat) (v : Word) :
    (s.storeCell a v).rs = s.rs := rfl
@[simp] theorem State.storeCell_traceEn (s : State) (a : Nat) (v : Word) :
    (s.storeCell a v).traceEn = s.traceEn := rfl
@[simp] theorem State.storeCell_err (s : State) (a : Nat) (v : Word) :
    (s.storeCell a v).err = s.err := rfl
@[simp] theorem State.storeCell_outLog (s : State) (a : Nat) (v : Word) :
    (s.storeCell a v).outLog = s.outLog := rfl
@[simp] theorem State.storeCell_traceLog (s : State) (a : Nat) (v : Word) :
    (s.storeCell a v).traceLog = s.traceLog := rfl
@[simp] theorem State.storeCell_params (s : State) (a : Nat) (v : Word) :
    (s.storeCell a v).params = s.params := rfl
@[simp] theorem State.storeCell_host (s : State) (a : Nat) (v : Word) :
    (s.storeCell a v).host = s.host := rfl

/-! ### push -/

@[simp] theorem State.push_regs (s : State) (v : Word) : (s.push v).regs = s.regs := rfl
@[simp] theorem State.push_pc (s : State) (v : Word) : (s.push v).pc = s.pc := rfl
@[simp] theorem State.push_mem (s : State) (v : Word) : (s.push v).mem = s.mem := rfl
@[simp] theorem State.push_stack (s : State) (v : Word) : (s.push v).stack = s.stack ++ [v] := rfl
@[simp] theorem State.push_inq (s : State) (v : Word) : (s.push v).inq = s.inq := rfl
@[simp] theorem State.push_rs (s : State) (v : Word) : (s.push v).rs = s.rs := rfl
@[simp] theorem State.push_traceEn (s : State) (v : Word) : (s.push v).traceEn = s.traceEn := rfl
@[simp] theorem State.push_err (s : State) (v : Word) : (s.push v).err = s.err := rfl
@[simp] theorem State.push_outLog (s : State) (v : Word) : (s.push v).outLog = s.outLog := rfl
@[simp] theorem State.push_traceLog (s : State) (v : Word) : (s.push v).traceLog = s.traceLog := rfl
@[simp] theorem State.push_params (s : State) (v : Word) : (s.push v).params = s.params := rfl
@[simp] theorem State.push_host (s : State) (v : Word) : (s.push v).host = s.host := rfl

/-! ### setStack -/

@[simp] theorem State.setStack_regs (s : State) (l : List Word) :
    (s.setStack l).regs = s.regs := rfl
@[simp] theorem State.setStack_pc (s : State) (l : List Word) : (s.setStack l).pc = s.pc := rfl
@[simp] theorem State.setStack_mem (s : State) (l : List Word) : (s.setStack l).mem = s.mem := rfl
@[simp] theorem State.setStack_stack (s : State) (l : List Word) : (s.setStack l).stack = l := rfl
@[simp] theorem State.setStack_inq (s : State) (l : List Word) : (s.setStack l).inq = s.inq := rfl
@[simp] theorem State.setStack_rs (s : State) (l : List Word) : (s.setStack l).rs = s.rs := rfl
@[simp] theorem State.setStack_traceEn (s : State) (l : List Word) :
    (s.setStack l).traceEn = s.traceEn := rfl
@[simp] theorem State.setStack_err (s : State) (l : List Word) : (s.setStack l).err = s.err := rfl
@[simp] theorem State.setStack_outLog (s : State) (l : List Word) :
    (s.setStack l).outLog = s.outLog := rfl
@[simp] theorem State.setStack_traceLog (s : State) (l : List Word) :
    (s.setStack l).traceLog = s.traceLog := rfl
@[simp] theorem State.setStack_params (s : State) (l : List Word) :
    (s.setStack l).params = s.params := rfl
@[simp] theorem State.setStack_host (s : State) (l : List Word) :
    (s.setStack l).host = s.host := rfl

/-! ### setInq -/

@[simp] theorem State.setInq_regs (s : State) (q : List Word) : (s.setInq q).regs = s.regs := rfl
@[simp] theorem State.setInq_pc (s : State) (q : List Word) : (s.setInq q).pc = s.pc := rfl
@[simp] theorem State.setInq_mem (s : State) (q : List Word) : (s.setInq q).mem = s.mem := rfl
@[simp] theorem State.setInq_stack (s : State) (q : List Word) : (s.setInq q).stack = s.stack := rfl
@[simp] theorem State.setInq_inq (s : State) (q : List Word) : (s.setInq q).inq = q := rfl
@[simp] theorem State.setInq_rs (s : State) (q : List Word) : (s.setInq q).rs = s.rs := rfl
@[simp] theorem State.setInq_traceEn (s : State) (q : List Word) :
    (s.setInq q).traceEn = s.traceEn := rfl
@[simp] theorem State.setInq_err (s : State) (q : List Word) : (s.setInq q).err = s.err := rfl
@[simp] theorem State.setInq_outLog (s : State) (q : List Word) :
    (s.setInq q).outLog = s.outLog := rfl
@[simp] theorem State.setInq_traceLog (s : State) (q : List Word) :
    (s.setInq q).traceLog = s.traceLog := rfl
@[simp] theorem State.setInq_params (s : State) (q : List Word) :
    (s.setInq q).params = s.params := rfl
@[simp] theorem State.setInq_host (s : State) (q : List Word) : (s.setInq q).host = s.host := rfl

/-! ### setHost -/

@[simp] theorem State.setHost_regs (s : State) (l : List HostAction) :
    (s.setHost l).regs = s.regs := rfl
@[simp] theorem State.setHost_pc (s : State) (l : List HostAction) : (s.setHost l).pc = s.pc := rfl
@[simp] theorem State.setHost_mem (s : State) (l : List HostAction) :
    (s.setHost l).mem = s.mem := rfl
@[simp] theorem State.setHost_stack (s : State) (l : List HostAction) :
    (s.setHost l).stack = s.stack := rfl
@[simp] theorem State.setHost_inq (s : State) (l : List HostAction) :
    (s.setHost l).inq = s.inq := rfl
@[simp] theorem State.setHost_rs (s : State) (l : List HostAction) : (s.setHost l).rs = s.rs := rfl
@[simp] theorem State.setHost_traceEn (s : State) (l : List HostAction) :
    (s.setHost l).traceEn = s.traceEn := rfl
@[simp] theorem State.setHost_err (s : State) (l : List HostAction) :
    (s.setHost l).err = s.err := rfl
@[simp] theorem State.setHost_outLog (s : State) (l : List HostAction) :
    (s.setHost l).outLog = s.outLog := rfl
@[simp] theorem State.setHost_traceLog (s : State) (l : List HostAction) :
    (s.setHost l).traceLog = s.traceLog := rfl
@[simp] theorem State.setHost_params (s : State) (l : List HostAction) :
    (s.setHost l).params = s.params := rfl
@[simp] theorem State.setHost_host (s : State) (l : List HostAction) : (s.setHost l).host = l := rfl

/-! ### emit -/

@[simp] theorem State.emit_regs (s : State) (v : Word) : (s.emit v).regs = s.regs := rfl
@[simp] theorem State.emit_pc (s : State) (v : Word) : (s.emit v).pc = s.pc := rfl
@[simp] theorem State.emit_mem (s : State) (v : Word) : (s.emit v).mem = s.mem := rfl
@[simp] theorem State.emit_stack (s : State) (v : Word) : (s.emit v).stack = s.stack := rfl
@[simp] theorem State.emit_inq (s : State) (v : Word) : (s.emit v).inq = s.inq := rfl
@[simp] theorem State.emit_rs (s : State) (v : Word) : (s.emit v).rs = s.rs := rfl
@[simp] theorem State.emit_traceEn (s : State) (v : Word) : (s.emit v).traceEn = s.traceEn := rfl
@[simp] theorem State.emit_err (s : State) (v : Word) : (s.emit v).err = s.err := rfl
@[simp] theorem State.emit_outLog (s : State) (v : Word) :
    (s.emit v).outLog = s.outLog ++ [v] := rfl
@[simp] theorem State.emit_traceLog (s : State) (v : Word) : (s.emit v).traceLog = s.traceLog := rfl
@[simp] theorem State.emit_params (s : State) (v : Word) : (s.emit v).params = s.params := rfl
@[simp] theorem State.emit_host (s : State) (v : Word) : (s.emit v).host = s.host := rfl

/-! ### setRs -/

@[simp] theorem State.setRs_regs (s : State) (v : RunState) : (s.setRs v).regs = s.regs := rfl
@[simp] theorem State.setRs_pc (s : State) (v : RunState) : (s.setRs v).pc = s.pc := rfl
@[simp] theorem State.setRs_mem (s : State) (v : RunState) : (s.setRs v).mem = s.mem := rfl
@[simp] theorem State.setRs_stack (s : State) (v : RunState) : (s.setRs v).stack = s.stack := rfl
@[simp] theorem State.setRs_inq (s : State) (v : RunState) : (s.setRs v).inq = s.inq := rfl
@[simp] theorem State.setRs_rs (s : State) (v : RunState) : (s.setRs v).rs = v := rfl
@[simp] theorem State.setRs_traceEn (s : State) (v : RunState) :
    (s.setRs v).traceEn = s.traceEn := rfl
@[simp] theorem State.setRs_err (s : State) (v : RunState) : (s.setRs v).err = s.err := rfl
@[simp] theorem State.setRs_outLog (s : State) (v : RunState) : (s.setRs v).outLog = s.outLog := rfl
@[simp] theorem State.setRs_traceLog (s : State) (v : RunState) :
    (s.setRs v).traceLog = s.traceLog := rfl
@[simp] theorem State.setRs_params (s : State) (v : RunState) : (s.setRs v).params = s.params := rfl
@[simp] theorem State.setRs_host (s : State) (v : RunState) : (s.setRs v).host = s.host := rfl

/-! ### addTrace -/

@[simp] theorem State.addTrace_regs (s : State) (t : TraceRecord) :
    (s.addTrace t).regs = s.regs := rfl
@[simp] theorem State.addTrace_pc (s : State) (t : TraceRecord) : (s.addTrace t).pc = s.pc := rfl
@[simp] theorem State.addTrace_mem (s : State) (t : TraceRecord) : (s.addTrace t).mem = s.mem := rfl
@[simp] theorem State.addTrace_stack (s : State) (t : TraceRecord) :
    (s.addTrace t).stack = s.stack := rfl
@[simp] theorem State.addTrace_inq (s : State) (t : TraceRecord) : (s.addTrace t).inq = s.inq := rfl
@[simp] theorem State.addTrace_rs (s : State) (t : TraceRecord) : (s.addTrace t).rs = s.rs := rfl
@[simp] theorem State.addTrace_traceEn (s : State) (t : TraceRecord) :
    (s.addTrace t).traceEn = s.traceEn := rfl
@[simp] theorem State.addTrace_err (s : State) (t : TraceRecord) : (s.addTrace t).err = s.err := rfl
@[simp] theorem State.addTrace_outLog (s : State) (t : TraceRecord) :
    (s.addTrace t).outLog = s.outLog := rfl
@[simp] theorem State.addTrace_traceLog (s : State) (t : TraceRecord) :
    (s.addTrace t).traceLog = s.traceLog ++ [t] := rfl
@[simp] theorem State.addTrace_params (s : State) (t : TraceRecord) :
    (s.addTrace t).params = s.params := rfl
@[simp] theorem State.addTrace_host (s : State) (t : TraceRecord) :
    (s.addTrace t).host = s.host := rfl

/-! ### raise -/

@[simp] theorem State.raise_regs (s : State) (w : Option Word) (e : Raise) :
    (s.raise w e).regs = s.regs := rfl
@[simp] theorem State.raise_pc (s : State) (w : Option Word) (e : Raise) :
    (s.raise w e).pc = s.pc := rfl
@[simp] theorem State.raise_mem (s : State) (w : Option Word) (e : Raise) :
    (s.raise w e).mem = s.mem := rfl
@[simp] theorem State.raise_stack (s : State) (w : Option Word) (e : Raise) :
    (s.raise w e).stack = s.stack := rfl
@[simp] theorem State.raise_inq (s : State) (w : Option Word) (e : Raise) :
    (s.raise w e).inq = s.inq := rfl
@[simp] theorem State.raise_rs (s : State) (w : Option Word) (e : Raise) :
    (s.raise w e).rs = .faulted := rfl
@[simp] theorem State.raise_traceEn (s : State) (w : Option Word) (e : Raise) :
    (s.raise w e).traceEn = s.traceEn := rfl
@[simp] theorem State.raise_err (s : State) (w : Option Word) (e : Raise) :
    (s.raise w e).err = some { cause := e.cause, subCause := e.subCause, opcode := w, pc := s.pc, operands := e.operands } := rfl
@[simp] theorem State.raise_outLog (s : State) (w : Option Word) (e : Raise) :
    (s.raise w e).outLog = s.outLog := rfl
@[simp] theorem State.raise_traceLog (s : State) (w : Option Word) (e : Raise) :
    (s.raise w e).traceLog = s.traceLog := rfl
@[simp] theorem State.raise_params (s : State) (w : Option Word) (e : Raise) :
    (s.raise w e).params = s.params := rfl
@[simp] theorem State.raise_host (s : State) (w : Option Word) (e : Raise) :
    (s.raise w e).host = s.host := rfl

/-! ### supplyLine -/

@[simp] theorem State.supplyLine_regs (s : State) (l : List Word) :
    (s.supplyLine l).regs = s.regs := rfl
@[simp] theorem State.supplyLine_pc (s : State) (l : List Word) : (s.supplyLine l).pc = s.pc := rfl
@[simp] theorem State.supplyLine_mem (s : State) (l : List Word) :
    (s.supplyLine l).mem = s.mem := rfl
@[simp] theorem State.supplyLine_stack (s : State) (l : List Word) :
    (s.supplyLine l).stack = s.stack := rfl
@[simp] theorem State.supplyLine_inq (s : State) (l : List Word) :
    (s.supplyLine l).inq = s.inq ++ expandLine l := rfl
@[simp] theorem State.supplyLine_rs (s : State) (l : List Word) :
    (s.supplyLine l).rs = .running := rfl
@[simp] theorem State.supplyLine_traceEn (s : State) (l : List Word) :
    (s.supplyLine l).traceEn = s.traceEn := rfl
@[simp] theorem State.supplyLine_err (s : State) (l : List Word) :
    (s.supplyLine l).err = s.err := rfl
@[simp] theorem State.supplyLine_outLog (s : State) (l : List Word) :
    (s.supplyLine l).outLog = s.outLog := rfl
@[simp] theorem State.supplyLine_traceLog (s : State) (l : List Word) :
    (s.supplyLine l).traceLog = s.traceLog := rfl
@[simp] theorem State.supplyLine_params (s : State) (l : List Word) :
    (s.supplyLine l).params = s.params := rfl
@[simp] theorem State.supplyLine_host (s : State) (l : List Word) :
    (s.supplyLine l).host = s.host := rfl

/-! ### debugAssist -/

@[simp] theorem State.debugAssist_regs (s : State) : (s.debugAssist).regs = s.regs.set 7 1 := rfl
@[simp] theorem State.debugAssist_pc (s : State) : (s.debugAssist).pc = s.pc := rfl
@[simp] theorem State.debugAssist_mem (s : State) : (s.debugAssist).mem = s.mem := rfl
@[simp] theorem State.debugAssist_stack (s : State) : (s.debugAssist).stack = s.stack := rfl
@[simp] theorem State.debugAssist_inq (s : State) : (s.debugAssist).inq = s.inq := rfl
@[simp] theorem State.debugAssist_rs (s : State) : (s.debugAssist).rs = s.rs := rfl
@[simp] theorem State.debugAssist_traceEn (s : State) : (s.debugAssist).traceEn = true := rfl
@[simp] theorem State.debugAssist_err (s : State) : (s.debugAssist).err = s.err := rfl
@[simp] theorem State.debugAssist_outLog (s : State) : (s.debugAssist).outLog = s.outLog := rfl
@[simp] theorem State.debugAssist_traceLog (s : State) :
    (s.debugAssist).traceLog = s.traceLog := rfl
@[simp] theorem State.debugAssist_params (s : State) : (s.debugAssist).params = s.params := rfl
@[simp] theorem State.debugAssist_host (s : State) : (s.debugAssist).host = s.host := rfl

/-! ### wr: a register or a cell, never both -/

@[simp] theorem State.wr_pc (s : State) (d : Dest) (v : Word) : (s.wr d v).pc = s.pc := by
  cases d <;> rfl
@[simp] theorem State.wr_stack (s : State) (d : Dest) (v : Word) : (s.wr d v).stack = s.stack := by
  cases d <;> rfl
@[simp] theorem State.wr_inq (s : State) (d : Dest) (v : Word) : (s.wr d v).inq = s.inq := by
  cases d <;> rfl
@[simp] theorem State.wr_rs (s : State) (d : Dest) (v : Word) : (s.wr d v).rs = s.rs := by
  cases d <;> rfl
@[simp] theorem State.wr_traceEn (s : State) (d : Dest) (v : Word) : (s.wr d v).traceEn = s.traceEn := by
  cases d <;> rfl
@[simp] theorem State.wr_err (s : State) (d : Dest) (v : Word) : (s.wr d v).err = s.err := by
  cases d <;> rfl
@[simp] theorem State.wr_outLog (s : State) (d : Dest) (v : Word) : (s.wr d v).outLog = s.outLog := by
  cases d <;> rfl
@[simp] theorem State.wr_traceLog (s : State) (d : Dest) (v : Word) : (s.wr d v).traceLog = s.traceLog := by
  cases d <;> rfl
@[simp] theorem State.wr_params (s : State) (d : Dest) (v : Word) : (s.wr d v).params = s.params := by
  cases d <;> rfl
@[simp] theorem State.wr_host (s : State) (d : Dest) (v : Word) : (s.wr d v).host = s.host := by
  cases d <;> rfl

@[simp] theorem State.wr_reg_mem (s : State) (r : Fin 8) (v : Word) :
    (s.wr (.reg r) v).mem = s.mem := rfl
@[simp] theorem State.wr_cell_regs (s : State) (a : Lit) (v : Word) :
    (s.wr (.cell a) v).regs = s.regs := rfl
@[simp] theorem State.wr_cell_mem (s : State) (a : Lit) (v : Word) :
    (s.wr (.cell a) v).mem = s.mem.write a.toNat v := rfl

/-! ### traced: the trace sink changes nothing but the trace -/

@[simp] theorem State.traced_regs (s : State) (i : Instr) : (s.traced i).regs = s.regs := by
  unfold State.traced; split <;> rfl
@[simp] theorem State.traced_pc (s : State) (i : Instr) : (s.traced i).pc = s.pc := by
  unfold State.traced; split <;> rfl
@[simp] theorem State.traced_mem (s : State) (i : Instr) : (s.traced i).mem = s.mem := by
  unfold State.traced; split <;> rfl
@[simp] theorem State.traced_stack (s : State) (i : Instr) : (s.traced i).stack = s.stack := by
  unfold State.traced; split <;> rfl
@[simp] theorem State.traced_inq (s : State) (i : Instr) : (s.traced i).inq = s.inq := by
  unfold State.traced; split <;> rfl
@[simp] theorem State.traced_rs (s : State) (i : Instr) : (s.traced i).rs = s.rs := by
  unfold State.traced; split <;> rfl
@[simp] theorem State.traced_traceEn (s : State) (i : Instr) : (s.traced i).traceEn = s.traceEn := by
  unfold State.traced; split <;> rfl
@[simp] theorem State.traced_err (s : State) (i : Instr) : (s.traced i).err = s.err := by
  unfold State.traced; split <;> rfl
@[simp] theorem State.traced_outLog (s : State) (i : Instr) : (s.traced i).outLog = s.outLog := by
  unfold State.traced; split <;> rfl
@[simp] theorem State.traced_params (s : State) (i : Instr) : (s.traced i).params = s.params := by
  unfold State.traced; split <;> rfl
@[simp] theorem State.traced_host (s : State) (i : Instr) : (s.traced i).host = s.host := by
  unfold State.traced; split <;> rfl

theorem State.traced_traceLog (s : State) (i : Instr) :
    (s.traced i).traceLog =
      if s.traceEn then s.traceLog ++ [traceRecord s i] else s.traceLog := by
  unfold State.traced; split <;> rfl

/-! ### The status the host reads -/

@[simp] theorem readStatus_rs (s : State) : (readStatus s).rs = s.rs := rfl
@[simp] theorem readStatus_traceEn (s : State) : (readStatus s).traceEn = s.traceEn := rfl
@[simp] theorem readStatus_pc (s : State) : (readStatus s).pc = s.pc := rfl

theorem readStatus_err_of_faulted {s : State} (h : s.rs = .faulted) :
    (readStatus s).err = s.err := if_pos h

theorem readStatus_err_of_not_faulted {s : State} (h : s.rs ≠ .faulted) :
    (readStatus s).err = none := if_neg h

/-! ### Reading a register after an update -/

theorem State.reg_eq_of_regs {s t : State} (h : t.regs = s.regs) (q : Fin 8) : t.reg q = s.reg q := by
  simp [State.reg, h]

@[simp] theorem State.reg_setReg (s : State) (r q : Fin 8) (v : Word) :
    (s.setReg r v).reg q = if q = r then v else s.reg q := by
  simp only [State.reg, State.setReg_regs, Fin.getElem_fin, Vector.getElem_set, Fin.ext_iff]
  simp only [eq_comm]

@[simp] theorem State.reg_setPc (s : State) (v : Word) (q : Fin 8) : (s.setPc v).reg q = s.reg q := rfl
@[simp] theorem State.reg_advance (s : State) (o : Op) (q : Fin 8) : (s.advance o).reg q = s.reg q := rfl
@[simp] theorem State.reg_storeCell (s : State) (a : Nat) (v : Word) (q : Fin 8) :
    (s.storeCell a v).reg q = s.reg q := rfl
@[simp] theorem State.reg_push (s : State) (v : Word) (q : Fin 8) : (s.push v).reg q = s.reg q := rfl
@[simp] theorem State.reg_setStack (s : State) (l : List Word) (q : Fin 8) :
    (s.setStack l).reg q = s.reg q := rfl
@[simp] theorem State.reg_setInq (s : State) (l : List Word) (q : Fin 8) :
    (s.setInq l).reg q = s.reg q := rfl
@[simp] theorem State.reg_setHost (s : State) (l : List HostAction) (q : Fin 8) :
    (s.setHost l).reg q = s.reg q := rfl
@[simp] theorem State.reg_emit (s : State) (v : Word) (q : Fin 8) : (s.emit v).reg q = s.reg q := rfl
@[simp] theorem State.reg_setRs (s : State) (v : RunState) (q : Fin 8) :
    (s.setRs v).reg q = s.reg q := rfl
@[simp] theorem State.reg_raise (s : State) (w : Option Word) (e : Raise) (q : Fin 8) :
    (s.raise w e).reg q = s.reg q := rfl
@[simp] theorem State.reg_supplyLine (s : State) (l : List Word) (q : Fin 8) :
    (s.supplyLine l).reg q = s.reg q := rfl
@[simp] theorem State.reg_traced (s : State) (i : Instr) (q : Fin 8) :
    (s.traced i).reg q = s.reg q := State.reg_eq_of_regs (by simp) q

@[simp] theorem State.reg_debugAssist (s : State) (q : Fin 8) :
    s.debugAssist.reg q = if q = 7 then 1 else s.reg q := State.reg_setReg s 7 q 1

@[simp] theorem State.reg_wr (s : State) (d : Dest) (v : Word) (q : Fin 8) :
    (s.wr d v).reg q = if d = .reg q then v else s.reg q := by
  cases d with
  | reg r => simp [State.wr, eq_comm]
  | cell a => simp [State.wr]

end Sys2Proof.Machine
end

