-- ==== Sys2Proof/Laws/Memory.lean ====
section
/-! SUPPORT. The laws of the memory operations: read after write, the frame of a write, and that every
memory operation keeps the canonical form. -/

namespace Sys2Proof.Machine

@[simp] theorem Memory.read_write_same (m : Memory) (a : Nat) (v : Word) :
    (m.write a v).read a = some v := by
  induction m with
  | nil => simp [Memory.write, Memory.read]
  | cons c m ih =>
    obtain ⟨b, w⟩ := c
    unfold Memory.write
    split
    · simp [Memory.read]
    · split
      · simp [Memory.read]
      · have : b ≠ a := fun h => by simp_all
        simp [Memory.read, this, ih]

@[simp] theorem Memory.read_write_other (m : Memory) {a b : Nat} (v : Word) (h : b ≠ a) :
    (m.write a v).read b = m.read b := by
  induction m with
  | nil => simp [Memory.write, Memory.read, h.symm]
  | cons c m ih =>
    obtain ⟨k, w⟩ := c
    unfold Memory.write
    split
    · simp [Memory.read, h.symm]
    · split
      · rename_i h1 h2
        subst h2
        simp [Memory.read, h.symm]
      · simp [Memory.read, ih]

theorem Memory.read_write (m : Memory) (a b : Nat) (v : Word) :
    (m.write a v).read b = if b = a then some v else m.read b := by
  by_cases h : b = a
  · subst h; simp
  · simp [h]

theorem Memory.wfFrom_mono {lo lo' : Nat} {m : Memory} (h : Memory.wfFrom lo' m = true)
    (hle : lo ≤ lo') : Memory.wfFrom lo m = true := by
  cases m with
  | nil => rfl
  | cons c m => simp_all [Memory.wfFrom]; omega

theorem Memory.wfFrom_write {lo a : Nat} {m : Memory} (v : Word) (h : Memory.wfFrom lo m = true)
    (hlo : lo ≤ a) (ha : a < Config.memWords) : Memory.wfFrom lo (m.write a v) = true := by
  induction m generalizing lo with
  | nil => simp_all [Memory.write, Memory.wfFrom]
  | cons c m ih =>
    obtain ⟨b, w⟩ := c
    simp only [Memory.wfFrom, Bool.and_eq_true, decide_eq_true_eq] at h
    unfold Memory.write
    split
    · simp only [Memory.wfFrom, Bool.and_eq_true, decide_eq_true_eq]
      exact ⟨⟨hlo, ha⟩, ⟨by omega, h.1.2⟩, h.2⟩
    · split
      · rename_i _ hab
        subst hab
        simp only [Memory.wfFrom, Bool.and_eq_true, decide_eq_true_eq]
        exact h
      · simp only [Memory.wfFrom, Bool.and_eq_true, decide_eq_true_eq]
        exact ⟨h.1, ih h.2 (by omega)⟩

/-- A write of a cell below 32768 keeps the canonical form. -/
theorem Memory.wf_write {m : Memory} {a : Nat} (v : Word) (h : m.wf = true)
    (ha : a < Config.memWords) : (m.write a v).wf = true :=
  Memory.wfFrom_write v h (Nat.zero_le a) ha

theorem Memory.wfFrom_cellsFrom (ws : List Word) (a : Nat) (h : a + ws.length ≤ Config.memWords) :
    Memory.wfFrom a (cellsFrom a ws) = true := by
  induction ws generalizing a with
  | nil => rfl
  | cons w ws ih =>
    simp only [List.length_cons] at h
    simp only [cellsFrom, Memory.wfFrom, Bool.and_eq_true, decide_eq_true_eq]
    exact ⟨⟨Nat.le_refl a, by omega⟩, ih (a + 1) (by omega)⟩

/-- The memory of an image of at most 32768 words is in canonical form. -/
theorem imageMemory_wf {ws : List Word} (h : ws.length ≤ Config.memWords) :
    (imageMemory ws).wf = true :=
  Memory.wfFrom_cellsFrom ws 0 (by omega)

/-- Loading words from outside keeps the canonical form. -/
theorem loadWords_wf {m : Memory} (h : m.wf = true) (a : Nat) (ws : List Word) :
    (loadWords m a ws).wf = true := by
  induction ws generalizing m a with
  | nil => exact h
  | cons w ws ih =>
    refine ih ?_ (a + 1)
    split
    · exact Memory.wf_write w h ‹_›
    · exact h

theorem reset_memory_wf : State.reset.mem.wf = true := rfl

/-- In a canonical memory only addresses below 32768 are defined. -/
theorem Memory.read_none_of_wf {m : Memory} (h : m.wf = true) {a : Nat}
    (ha : Config.memWords ≤ a) : m.read a = none := by
  have key : ∀ (m : Memory) (lo : Nat), Memory.wfFrom lo m = true → m.read a = none := by
    intro m
    induction m with
    | nil => intro _ _; rfl
    | cons c m ih =>
      obtain ⟨b, w⟩ := c
      intro lo hm
      simp only [Memory.wfFrom, Bool.and_eq_true, decide_eq_true_eq] at hm
      have : b ≠ a := by omega
      simp [Memory.read, this, ih _ hm.2]
  exact key m 0 h

/-- `wr` writes one place: the cell it names, or no cell. -/
theorem State.read_wr (s : State) (d : Dest) (v : Word) (a : Nat) :
    (s.wr d v).mem.read a =
      match d with
      | .reg _ => s.mem.read a
      | .cell c => if a = c.toNat then some v else s.mem.read a := by
  cases d with
  | reg r => rfl
  | cell c => simp [Memory.read_write]

/-- `wr` keeps the canonical form: a destination cell is always below 32768
(20_memory.md rule R53). -/
theorem State.wr_mem_wf {s : State} (h : s.mem.wf = true) (d : Dest) (v : Word) :
    (s.wr d v).mem.wf = true := by
  cases d with
  | reg r => exact h
  | cell a => exact Memory.wf_write v h a.isLt

/-- `MemRead` reads nothing but the memory and `MEM_FILL`. -/
theorem memRead_congr {s t : State} (hm : t.mem = s.mem) (hp : t.params = s.params)
    (src : List ErrEntry) (a : Nat) : memRead t src a = memRead s src a := by
  simp [memRead, hm, hp]

theorem fetch_congr {s t : State} (hm : t.mem = s.mem) (hp : t.params = s.params)
    (hpc : t.pc = s.pc) : fetch t = fetch s := by
  have : fetchWord t = fetchWord s := by
    funext k
    simp [fetchWord, hpc, memRead_congr hm hp]
  simp [fetch, this]

end Sys2Proof.Machine
end

