-- ==== Sys2Proof/Laws/Ops.lean ====
section
/-! SUPPORT. One lemma per shared operation saying what it answers. -/

namespace Sys2Proof

@[simp] theorem except_ok_bind {ε α β : Type} (a : α) (f : α → Except ε β) :
    (Except.ok a >>= f) = f a := rfl

@[simp] theorem except_error_bind {ε α β : Type} (e : ε) (f : α → Except ε β) :
    ((Except.error e : Except ε α) >>= f) = .error e := rfl

/-- A sequence of checks succeeds exactly when each of them does. -/
theorem except_bind_ok {ε α β : Type} {x : Except ε α} {f : α → Except ε β} {b : β} :
    (x >>= f) = .ok b ↔ ∃ a, x = .ok a ∧ f a = .ok b := by
  cases x <;> simp

namespace Machine

@[simp] theorem complete_ok (o : Op) (s t : State) : complete o s (.ok t) = .next t := rfl

@[simp] theorem complete_error (o : Op) (s : State) (e : Raise) :
    complete o s (.error e) = .next (s.raise (some (opcodeWord o)) e) := rfl

/-- An instruction whose checks are `r` ends in the state they answer or takes their exception. -/
theorem complete_cases {o : Op} {s t : State} {r : Check State} (h : complete o s r = .next t) :
    r = .ok t ∨ ∃ e, r = .error e ∧ t = s.raise (some (opcodeWord o)) e := by
  cases r with
  | ok u => left; simpa using h
  | error e => right; exact ⟨e, rfl, by simpa using h.symm⟩

theorem complete_next (o : Op) (s : State) (r : Check State) : ∃ t, complete o s r = .next t := by
  cases r with
  | ok u => exact ⟨u, rfl⟩
  | error e => exact ⟨_, rfl⟩

theorem rd_ok {s : State} {p : Pos} {o : Operand} {v : Word} :
    rd s p o = .ok v ↔ resolve s o = some v := by
  unfold rd; split <;> simp_all

theorem rd_of_resolve {s : State} {o : Operand} {v : Word} (p : Pos) (h : resolve s o = some v) :
    rd s p o = .ok v := rd_ok.2 h

theorem rd_of_invalid {s : State} {o : Operand} (p : Pos) (h : resolve s o = none) :
    rd s p o = .error (Raise.invalidOperand p o) := by
  simp [rd, h]

theorem destok_ok {p : Pos} {o : Operand} {d : Dest} :
    destok p o = .ok d ↔ destOf o = some d := by
  unfold destok; split <;> simp_all

theorem destok_of_dest {o : Operand} {d : Dest} (p : Pos) (h : destOf o = some d) :
    destok p o = .ok d := destok_ok.2 h

theorem destok_of_invalid {o : Operand} (p : Pos) (h : destOf o = none) :
    destok p o = .error (Raise.invalidOperand p o) := by
  simp [destok, h]

/-- A word is valid as a source exactly when it is valid as a destination (30_encoding.md rule
R84). -/
theorem resolve_none_iff_destOf_none (s : State) (o : Operand) :
    resolve s o = none ↔ destOf o = none := by
  cases o <;> simp [resolve, destOf]

theorem memRead_ok_lt {s : State} {src : List ErrEntry} {a : Nat} {v : Word}
    (h : memRead s src a = .ok v) : a < Config.memWords := by
  unfold memRead at h
  split at h
  · cases h
  · omega

theorem memRead_of_read {s : State} {a : Nat} {v : Word} (src : List ErrEntry)
    (ha : a < Config.memWords) (h : s.mem.read a = some v) : memRead s src a = .ok v := by
  simp [memRead, Nat.not_le.2 ha, h]

theorem memWrite_ok {s t : State} {src : List ErrEntry} {a : Nat} {v : Word} :
    memWrite s src a v = .ok t ↔ a < Config.memWords ∧ t = s.storeCell a v := by
  unfold memWrite
  split
  · simp; omega
  · simp [eq_comm]; omega

theorem stackRoom_ok {s : State} :
    stackRoom s = .ok () ↔ s.params.stackDepth ≠ some s.stack.length := by
  unfold stackRoom; split <;> simp_all

/-- `pop()` answers the top entry and removes it, and answers nothing on an empty stack. -/
theorem pop?_some {s t : State} {v : Word} :
    s.pop? = some (v, t) ↔ ∃ l, s.stack = l ++ [v] ∧ t = s.setStack l := by
  unfold State.pop?
  rcases List.eq_nil_or_concat s.stack with h | ⟨l, w, h⟩
  · simp [h]
  · simp [h, eq_comm]

theorem pop?_none {s : State} : s.pop? = none ↔ s.stack = [] := by
  unfold State.pop?
  rcases List.eq_nil_or_concat s.stack with h | ⟨l, w, h⟩ <;> simp [h]

/-- `deq()` answers the head and removes it, and answers nothing on an empty queue. -/
theorem deq?_some {s t : State} {v : Word} :
    s.deq? = some (v, t) ↔ ∃ q, s.inq = v :: q ∧ t = s.setInq q := by
  unfold State.deq?
  cases h : s.inq with
  | nil => simp
  | cons w q => simp [eq_comm]

theorem deq?_none {s : State} : s.deq? = none ↔ s.inq = [] := by
  unfold State.deq?
  cases h : s.inq <;> simp

end Machine

end Sys2Proof
end

