-- ==== Sys2Proof/Laws/Exec.lean ====
section
/-! SUPPORT. What executing an instruction can do, said once: it takes an exception, or it has the one
effect `Effect` lists for it. Proofs about `exec` cite `exec_cases` and do not unfold a meaning. -/

namespace Sys2Proof.Machine

/-- `Effect i s t`: `t` is what phase 2 of instruction `i` leaves of state `s`, every check of phase 1
having passed (40_cycle_and_operands.md rule R105). -/
inductive Effect : Instr → State → State → Prop where
  | halt (s : State) : Effect .halt s (s.setRs .halted)
  | set {s : State} {a b : Operand} {v : Word} {d : Dest} (hb : resolve s b = some v)
      (ha : destOf a = some d) : Effect (.set a b) s ((s.wr d v).advance .set)
  | push {s : State} {a : Operand} {v : Word} (ha : resolve s a = some v)
      (room : s.params.stackDepth ≠ some s.stack.length) :
      Effect (.push a) s ((s.push v).advance .push)
  | pop {s : State} {a : Operand} {l : List Word} {v : Word} {d : Dest}
      (hs : s.stack = l ++ [v]) (ha : destOf a = some d) :
      Effect (.pop a) s (((s.setStack l).wr d v).advance .pop)
  | eq {s : State} {a b c : Operand} {vb vc : Word} {d : Dest} (hb : resolve s b = some vb)
      (hc : resolve s c = some vc) (ha : destOf a = some d) :
      Effect (.eq a b c) s ((s.wr d (eqResult vb vc)).advance .eq)
  | gt {s : State} {a b c : Operand} {vb vc : Word} {d : Dest} (hb : resolve s b = some vb)
      (hc : resolve s c = some vc) (ha : destOf a = some d) :
      Effect (.gt a b c) s ((s.wr d (gtResult vb vc)).advance .gt)
  | jmp {s : State} {a : Operand} {v : Word} (ha : resolve s a = some v) :
      Effect (.jmp a) s (s.setPc v)
  | jtTaken {s : State} {a b : Operand} {va vb : Word} (ha : resolve s a = some va)
      (hv : nonZero va = true) (hb : resolve s b = some vb) : Effect (.jt a b) s (s.setPc vb)
  | jtUntaken {s : State} {a b : Operand} {va : Word} (ha : resolve s a = some va)
      (hv : nonZero va = false) : Effect (.jt a b) s (s.advance .jt)
  | jfTaken {s : State} {a b : Operand} {va vb : Word} (ha : resolve s a = some va)
      (hv : nonZero va = false) (hb : resolve s b = some vb) : Effect (.jf a b) s (s.setPc vb)
  | jfUntaken {s : State} {a b : Operand} {va : Word} (ha : resolve s a = some va)
      (hv : nonZero va = true) : Effect (.jf a b) s (s.advance .jf)
  | add {s : State} {a b c : Operand} {vb vc : Word} {d : Dest} (hb : resolve s b = some vb)
      (hc : resolve s c = some vc) (ha : destOf a = some d) :
      Effect (.add a b c) s ((s.wr d (addResult vb vc)).advance .add)
  | mult {s : State} {a b c : Operand} {vb vc : Word} {d : Dest} (hb : resolve s b = some vb)
      (hc : resolve s c = some vc) (ha : destOf a = some d) :
      Effect (.mult a b c) s ((s.wr d (multResult vb vc)).advance .mult)
  | mod {s : State} {a b c : Operand} {vb vc : Word} {d : Dest} (hb : resolve s b = some vb)
      (hc : resolve s c = some vc) (hz : vc ≠ 0) (ha : destOf a = some d) :
      Effect (.mod a b c) s ((s.wr d (modResult vb vc)).advance .mod)
  | and {s : State} {a b c : Operand} {vb vc : Word} {d : Dest} (hb : resolve s b = some vb)
      (hc : resolve s c = some vc) (ha : destOf a = some d) :
      Effect (.and a b c) s ((s.wr d (andResult vb vc)).advance .and)
  | or {s : State} {a b c : Operand} {vb vc : Word} {d : Dest} (hb : resolve s b = some vb)
      (hc : resolve s c = some vc) (ha : destOf a = some d) :
      Effect (.or a b c) s ((s.wr d (orResult vb vc)).advance .or)
  | not {s : State} {a b : Operand} {v : Word} {d : Dest} (hb : resolve s b = some v)
      (ha : destOf a = some d) : Effect (.not a b) s ((s.wr d (notResult v)).advance .not)
  | rmem {s : State} {a b : Operand} {addr v : Word} {d : Dest} (hb : resolve s b = some addr)
      (hm : ∀ src, memRead s src addr.toNat = .ok v) (ha : destOf a = some d) :
      Effect (.rmem a b) s ((s.wr d v).advance .rmem)
  | wmem {s : State} {a b : Operand} {addr v : Word} (ha : resolve s a = some addr)
      (hb : resolve s b = some v) (hlt : addr.toNat < Config.memWords) :
      Effect (.wmem a b) s ((s.storeCell addr.toNat v).advance .wmem)
  | call {s : State} {a : Operand} {v : Word} (ha : resolve s a = some v)
      (room : s.params.stackDepth ≠ some s.stack.length) :
      Effect (.call a) s ((s.push (returnAddress s)).setPc v)
  | retHalt {s : State} (hs : s.stack = []) : Effect .ret s (s.setRs .halted)
  | retJump {s : State} {l : List Word} {v : Word} (hs : s.stack = l ++ [v]) :
      Effect .ret s ((s.setStack l).setPc v)
  | out {s : State} {a : Operand} {v : Word} (ha : resolve s a = some v) :
      Effect (.out a) s ((s.emit v).advance .out)
  | inpWait {s : State} {a : Operand} {d : Dest} (ha : destOf a = some d) (hq : s.inq = []) :
      Effect (.inp a) s (s.setRs .awaitingInput)
  | inpTake {s : State} {a : Operand} {d : Dest} {v : Word} {q : List Word}
      (ha : destOf a = some d) (hq : s.inq = v :: q) :
      Effect (.inp a) s (((s.setInq q).wr d v).advance .inp)
  | noop (s : State) : Effect .noop s (s.advance .noop)

theorem memRead_ok_src {s : State} {src : List ErrEntry} {a : Nat} {v : Word}
    (h : memRead s src a = .ok v) (src' : List ErrEntry) : memRead s src' a = .ok v := by
  unfold memRead at h ⊢
  split at h
  · cases h
  · rename_i hlt
    rw [if_neg hlt]
    exact h

/-- `Raises i s e`: the exception `e` has its cause in instruction `i` and state `s` (60_exceptions.md
rules R241, R242, R244 to R246). -/
inductive Raises : Instr → State → Raise → Prop where
  | invalid {i : Instr} {s : State} {p : Pos} {w : Word} (h : Operand.invalid w ∈ i.operands) :
      Raises i s (Raise.invalidOperand p (.invalid w))
  | divisorZero {s : State} {a b c : Operand} (hc : resolve s c = some 0) :
      Raises (.mod a b c) s (Raise.divisorZero c)
  | underflow {s : State} {a : Operand} (hs : s.stack = []) :
      Raises (.pop a) s (Raise.stackUnderflow a)
  | pushFull {s : State} {a : Operand} (h : s.params.stackDepth = some s.stack.length) :
      Raises (.push a) s Raise.stackOverflow
  | callFull {s : State} {a : Operand} (h : s.params.stackDepth = some s.stack.length) :
      Raises (.call a) s Raise.stackOverflow
  | rmemAddress {s : State} {a b : Operand} {addr : Word} {src : List ErrEntry}
      (hb : resolve s b = some addr) (h : Config.memWords ≤ addr.toNat) :
      Raises (.rmem a b) s (Raise.addressFault addr.toNat src)
  | wmemAddress {s : State} {a b : Operand} {addr : Word} {src : List ErrEntry}
      (ha : resolve s a = some addr) (h : Config.memWords ≤ addr.toNat) :
      Raises (.wmem a b) s (Raise.addressFault addr.toNat src)
  | rmemUnwritten {s : State} {a b : Operand} {addr : Word} (hb : resolve s b = some addr)
      (h : addr.toNat < Config.memWords) (hr : s.mem.read addr.toNat = none)
      (hf : s.params.memFill = none) : Raises (.rmem a b) s (Raise.unwrittenRead addr.toNat)

theorem raises_of_rd {i : Instr} {s : State} {p : Pos} {o : Operand} {e : Raise}
    (h : rd s p o = .error e) (ho : o ∈ i.operands) : Raises i s e := by
  cases o with
  | invalid w => cases h; exact .invalid ho
  | literal v => cases h
  | reg r => cases h

theorem raises_of_destok {i : Instr} {s : State} {p : Pos} {o : Operand} {e : Raise}
    (h : destok p o = .error e) (ho : o ∈ i.operands) : Raises i s e := by
  cases o with
  | invalid w => cases h; exact .invalid ho
  | literal v => cases h
  | reg r => cases h

theorem memRead_error {s : State} {src : List ErrEntry} {a : Nat} {e : Raise}
    (h : memRead s src a = .error e) :
    (Config.memWords ≤ a ∧ e = Raise.addressFault a src) ∨
    (a < Config.memWords ∧ s.mem.read a = none ∧ s.params.memFill = none ∧
      e = Raise.unwrittenRead a) := by
  unfold memRead at h
  split at h
  · cases h; exact .inl ⟨‹_›, rfl⟩
  · split at h
    · cases h
    · split at h
      · cases h
      · cases h; exact .inr ⟨by omega, ‹_›, ‹_›, rfl⟩

theorem stackRoom_error {s : State} {e : Raise} (h : stackRoom s = .error e) :
    s.params.stackDepth = some s.stack.length ∧ e = Raise.stackOverflow := by
  unfold stackRoom at h
  split at h
  · cases h; exact ⟨‹_›, rfl⟩
  · cases h

/-- A sequence of checks fails exactly when one of them does, those before it having passed. -/
theorem except_bind_error_iff {ε α β : Type} {x : Except ε α} {f : α → Except ε β} {e : ε} :
    (x >>= f) = .error e ↔ x = .error e ∨ ∃ a, x = .ok a ∧ f a = .error e := by
  cases x <;> simp

/-- The checks of a `D S S` instruction fail only on an invalid operand word. -/
theorem raises_of_binary {i : Instr} {s : State} {o : Op} {f : Word → Word → Word}
    {a b c : Operand} {e : Raise} (hi : i.operands = [a, b, c])
    (h : (rd s .b b >>= fun vb => rd s .c c >>= fun vc => destok .a a >>= fun d =>
      (Except.ok ((s.wr d (f vb vc)).advance o) : Check State)) = .error e) : Raises i s e := by
  obtain h | ⟨vb, -, h⟩ := except_bind_error_iff.1 h
  · exact raises_of_rd h (by simp [hi])
  obtain h | ⟨vc, -, h⟩ := except_bind_error_iff.1 h
  · exact raises_of_rd h (by simp [hi])
  obtain h | ⟨d, -, h⟩ := except_bind_error_iff.1 h
  · exact raises_of_destok h (by simp [hi])
  cases h

/-- The checks of a `D S` instruction fail only on an invalid operand word. -/
theorem raises_of_unary {i : Instr} {s : State} {o : Op} {f : Word → Word} {a b : Operand}
    {e : Raise} (hi : i.operands = [a, b])
    (h : (rd s .b b >>= fun vb => destok .a a >>= fun d =>
      (Except.ok ((s.wr d (f vb)).advance o) : Check State)) = .error e) : Raises i s e := by
  obtain h | ⟨vb, -, h⟩ := except_bind_error_iff.1 h
  · exact raises_of_rd h (by simp [hi])
  obtain h | ⟨d, -, h⟩ := except_bind_error_iff.1 h
  · exact raises_of_destok h (by simp [hi])
  cases h

/-- The checks of a conditional jump fail only on an invalid operand word. -/
theorem raises_of_conditional {i : Instr} {s : State} {o : Op} {taken : Word → Bool}
    {a b : Operand} {e : Raise} (hi : i.operands = [a, b])
    (h : (rd s .a a >>= fun va => if taken va then rd s .b b >>= fun t => .ok (s.setPc t)
      else (Except.ok (s.advance o) : Check State)) = .error e) : Raises i s e := by
  obtain h | ⟨va, -, h⟩ := except_bind_error_iff.1 h
  · exact raises_of_rd h (by simp [hi])
  split at h
  · obtain h | ⟨vb, -, h⟩ := except_bind_error_iff.1 h
    · exact raises_of_rd h (by simp [hi])
    cases h
  · cases h

/-- Executing an instruction has the instruction's effect, or takes an exception that has its cause. -/
theorem exec_cases {i : Instr} {s t : State} (h : exec i s = .next t) :
    Effect i s t ∨ ∃ e, Raises i s e ∧ t = s.raise (some (opcodeWord i.op)) e := by
  cases i with
  | halt => cases h; exact .inl (.halt s)
  | noop => cases h; exact .inl (.noop s)
  | set a b =>
    obtain h | ⟨e, he, rfl⟩ := complete_cases h
    · obtain ⟨v, hb, h⟩ := except_bind_ok.1 h
      obtain ⟨d, ha, h⟩ := except_bind_ok.1 h
      cases h; exact .inl (.set (rd_ok.1 hb) (destok_ok.1 ha))
    · refine .inr ⟨e, ?_, rfl⟩
      exact raises_of_unary rfl he
  | not a b =>
    obtain h | ⟨e, he, rfl⟩ := complete_cases h
    · obtain ⟨v, hb, h⟩ := except_bind_ok.1 h
      obtain ⟨d, ha, h⟩ := except_bind_ok.1 h
      cases h; exact .inl (.not (rd_ok.1 hb) (destok_ok.1 ha))
    · refine .inr ⟨e, ?_, rfl⟩
      exact raises_of_unary rfl he
  | push a =>
    obtain h | ⟨e, he, rfl⟩ := complete_cases h
    · obtain ⟨v, ha, h⟩ := except_bind_ok.1 h
      obtain ⟨u, hr, h⟩ := except_bind_ok.1 h
      cases h; exact .inl (.push (rd_ok.1 ha) (stackRoom_ok.1 hr))
    · refine .inr ⟨e, ?_, rfl⟩
      obtain he | ⟨v, -, he⟩ := except_bind_error_iff.1 he
      · exact raises_of_rd he (by simp [Instr.operands])
      obtain he | ⟨u, -, he⟩ := except_bind_error_iff.1 he
      · obtain ⟨hd, rfl⟩ := stackRoom_error he
        exact .pushFull hd
      cases he
  | call a =>
    obtain h | ⟨e, he, rfl⟩ := complete_cases h
    · obtain ⟨v, ha, h⟩ := except_bind_ok.1 h
      obtain ⟨u, hr, h⟩ := except_bind_ok.1 h
      cases h; exact .inl (.call (rd_ok.1 ha) (stackRoom_ok.1 hr))
    · refine .inr ⟨e, ?_, rfl⟩
      obtain he | ⟨v, -, he⟩ := except_bind_error_iff.1 he
      · exact raises_of_rd he (by simp [Instr.operands])
      obtain he | ⟨u, -, he⟩ := except_bind_error_iff.1 he
      · obtain ⟨hd, rfl⟩ := stackRoom_error he
        exact .callFull hd
      cases he
  | pop a =>
    obtain h | ⟨e, he, rfl⟩ := complete_cases h
    · split at h
      · cases h
      · obtain ⟨l, hs, rfl⟩ := pop?_some.1 ‹_›
        obtain ⟨d, ha, h⟩ := except_bind_ok.1 h
        cases h; exact .inl (.pop hs (destok_ok.1 ha))
    · refine .inr ⟨e, ?_, rfl⟩
      split at he
      · cases he; exact .underflow (pop?_none.1 ‹_›)
      · obtain he | ⟨d, -, he⟩ := except_bind_error_iff.1 he
        · exact raises_of_destok he (by simp [Instr.operands])
        cases he
  | eq a b c =>
    obtain h | ⟨e, he, rfl⟩ := complete_cases h
    · obtain ⟨vb, hb, h⟩ := except_bind_ok.1 h
      obtain ⟨vc, hc, h⟩ := except_bind_ok.1 h
      obtain ⟨d, ha, h⟩ := except_bind_ok.1 h
      cases h; exact .inl (.eq (rd_ok.1 hb) (rd_ok.1 hc) (destok_ok.1 ha))
    · refine .inr ⟨e, ?_, rfl⟩
      exact raises_of_binary rfl he
  | gt a b c =>
    obtain h | ⟨e, he, rfl⟩ := complete_cases h
    · obtain ⟨vb, hb, h⟩ := except_bind_ok.1 h
      obtain ⟨vc, hc, h⟩ := except_bind_ok.1 h
      obtain ⟨d, ha, h⟩ := except_bind_ok.1 h
      cases h; exact .inl (.gt (rd_ok.1 hb) (rd_ok.1 hc) (destok_ok.1 ha))
    · refine .inr ⟨e, ?_, rfl⟩
      exact raises_of_binary rfl he
  | add a b c =>
    obtain h | ⟨e, he, rfl⟩ := complete_cases h
    · obtain ⟨vb, hb, h⟩ := except_bind_ok.1 h
      obtain ⟨vc, hc, h⟩ := except_bind_ok.1 h
      obtain ⟨d, ha, h⟩ := except_bind_ok.1 h
      cases h; exact .inl (.add (rd_ok.1 hb) (rd_ok.1 hc) (destok_ok.1 ha))
    · refine .inr ⟨e, ?_, rfl⟩
      exact raises_of_binary rfl he
  | mult a b c =>
    obtain h | ⟨e, he, rfl⟩ := complete_cases h
    · obtain ⟨vb, hb, h⟩ := except_bind_ok.1 h
      obtain ⟨vc, hc, h⟩ := except_bind_ok.1 h
      obtain ⟨d, ha, h⟩ := except_bind_ok.1 h
      cases h; exact .inl (.mult (rd_ok.1 hb) (rd_ok.1 hc) (destok_ok.1 ha))
    · refine .inr ⟨e, ?_, rfl⟩
      exact raises_of_binary rfl he
  | and a b c =>
    obtain h | ⟨e, he, rfl⟩ := complete_cases h
    · obtain ⟨vb, hb, h⟩ := except_bind_ok.1 h
      obtain ⟨vc, hc, h⟩ := except_bind_ok.1 h
      obtain ⟨d, ha, h⟩ := except_bind_ok.1 h
      cases h; exact .inl (.and (rd_ok.1 hb) (rd_ok.1 hc) (destok_ok.1 ha))
    · refine .inr ⟨e, ?_, rfl⟩
      exact raises_of_binary rfl he
  | or a b c =>
    obtain h | ⟨e, he, rfl⟩ := complete_cases h
    · obtain ⟨vb, hb, h⟩ := except_bind_ok.1 h
      obtain ⟨vc, hc, h⟩ := except_bind_ok.1 h
      obtain ⟨d, ha, h⟩ := except_bind_ok.1 h
      cases h; exact .inl (.or (rd_ok.1 hb) (rd_ok.1 hc) (destok_ok.1 ha))
    · refine .inr ⟨e, ?_, rfl⟩
      exact raises_of_binary rfl he
  | mod a b c =>
    obtain h | ⟨e, he, rfl⟩ := complete_cases h
    · obtain ⟨vb, hb, h⟩ := except_bind_ok.1 h
      obtain ⟨vc, hc, h⟩ := except_bind_ok.1 h
      split at h
      · cases h
      · obtain ⟨d, ha, h⟩ := except_bind_ok.1 h
        cases h; exact .inl (.mod (rd_ok.1 hb) (rd_ok.1 hc) ‹_› (destok_ok.1 ha))
    · refine .inr ⟨e, ?_, rfl⟩
      obtain he | ⟨vb, -, he⟩ := except_bind_error_iff.1 he
      · exact raises_of_rd he (by simp [Instr.operands])
      obtain he | ⟨vc, hc, he⟩ := except_bind_error_iff.1 he
      · exact raises_of_rd he (by simp [Instr.operands])
      split at he
      · rename_i hz
        subst hz
        cases he; exact .divisorZero (rd_ok.1 hc)
      · obtain he | ⟨d, -, he⟩ := except_bind_error_iff.1 he
        · exact raises_of_destok he (by simp [Instr.operands])
        cases he
  | jmp a =>
    obtain h | ⟨e, he, rfl⟩ := complete_cases h
    · obtain ⟨v, ha, h⟩ := except_bind_ok.1 h
      cases h; exact .inl (.jmp (rd_ok.1 ha))
    · refine .inr ⟨e, ?_, rfl⟩
      obtain he | ⟨v, -, he⟩ := except_bind_error_iff.1 he
      · exact raises_of_rd he (by simp [Instr.operands])
      cases he
  | jt a b =>
    obtain h | ⟨e, he, rfl⟩ := complete_cases h
    · obtain ⟨va, ha, h⟩ := except_bind_ok.1 h
      split at h
      · obtain ⟨vb, hb, h⟩ := except_bind_ok.1 h
        cases h; exact .inl (.jtTaken (rd_ok.1 ha) ‹_› (rd_ok.1 hb))
      · cases h; exact .inl (.jtUntaken (rd_ok.1 ha) (by simp_all))
    · refine .inr ⟨e, ?_, rfl⟩
      exact raises_of_conditional rfl he
  | jf a b =>
    obtain h | ⟨e, he, rfl⟩ := complete_cases h
    · obtain ⟨va, ha, h⟩ := except_bind_ok.1 h
      split at h
      · obtain ⟨vb, hb, h⟩ := except_bind_ok.1 h
        cases h; exact .inl (.jfTaken (rd_ok.1 ha) (by simp_all) (rd_ok.1 hb))
      · cases h; exact .inl (.jfUntaken (rd_ok.1 ha) (by simp_all))
    · refine .inr ⟨e, ?_, rfl⟩
      exact raises_of_conditional rfl he
  | rmem a b =>
    obtain h | ⟨e, he, rfl⟩ := complete_cases h
    · obtain ⟨addr, hb, h⟩ := except_bind_ok.1 h
      obtain ⟨v, hm, h⟩ := except_bind_ok.1 h
      obtain ⟨d, ha, h⟩ := except_bind_ok.1 h
      cases h; exact .inl (.rmem (rd_ok.1 hb) (memRead_ok_src hm) (destok_ok.1 ha))
    · refine .inr ⟨e, ?_, rfl⟩
      obtain he | ⟨addr, hb, he⟩ := except_bind_error_iff.1 he
      · exact raises_of_rd he (by simp [Instr.operands])
      obtain he | ⟨v, -, he⟩ := except_bind_error_iff.1 he
      · obtain ⟨hge, rfl⟩ | ⟨hlt, hr, hf, rfl⟩ := memRead_error he
        · exact .rmemAddress (rd_ok.1 hb) hge
        · exact .rmemUnwritten (rd_ok.1 hb) hlt hr hf
      obtain he | ⟨d, -, he⟩ := except_bind_error_iff.1 he
      · exact raises_of_destok he (by simp [Instr.operands])
      cases he
  | wmem a b =>
    obtain h | ⟨e, he, rfl⟩ := complete_cases h
    · obtain ⟨addr, ha, h⟩ := except_bind_ok.1 h
      obtain ⟨v, hb, h⟩ := except_bind_ok.1 h
      obtain ⟨u, hu, h⟩ := except_bind_ok.1 h
      obtain ⟨hlt, rfl⟩ := memWrite_ok.1 hu
      cases h; exact .inl (.wmem (rd_ok.1 ha) (rd_ok.1 hb) hlt)
    · refine .inr ⟨e, ?_, rfl⟩
      obtain he | ⟨addr, ha, he⟩ := except_bind_error_iff.1 he
      · exact raises_of_rd he (by simp [Instr.operands])
      obtain he | ⟨v, -, he⟩ := except_bind_error_iff.1 he
      · exact raises_of_rd he (by simp [Instr.operands])
      obtain he | ⟨u, -, he⟩ := except_bind_error_iff.1 he
      · unfold memWrite at he
        split at he
        · cases he; exact .wmemAddress (rd_ok.1 ha) ‹_›
        · cases he
      cases he
  | ret =>
    change execRet s = _ at h
    unfold execRet at h
    split at h
    · cases h; exact .inl (.retHalt (pop?_none.1 ‹_›))
    · obtain ⟨l, hs, rfl⟩ := pop?_some.1 ‹_›
      cases h; exact .inl (.retJump hs)
  | out a =>
    obtain h | ⟨e, he, rfl⟩ := complete_cases h
    · obtain ⟨v, ha, h⟩ := except_bind_ok.1 h
      cases h; exact .inl (.out (rd_ok.1 ha))
    · refine .inr ⟨e, ?_, rfl⟩
      obtain he | ⟨v, -, he⟩ := except_bind_error_iff.1 he
      · exact raises_of_rd he (by simp [Instr.operands])
      cases he
  | inp a =>
    obtain h | ⟨e, he, rfl⟩ := complete_cases h
    · obtain ⟨d, ha, h⟩ := except_bind_ok.1 h
      split at h
      · cases h; exact .inl (.inpWait (destok_ok.1 ha) (deq?_none.1 ‹_›))
      · obtain ⟨q, hq, rfl⟩ := deq?_some.1 ‹_›
        cases h; exact .inl (.inpTake (destok_ok.1 ha) hq)
    · refine .inr ⟨e, ?_, rfl⟩
      obtain he | ⟨d, -, he⟩ := except_bind_error_iff.1 he
      · exact raises_of_destok he (by simp [Instr.operands])
      split at he <;> cases he

/-- Every instruction answers a next state: no meaning faults and none refuses. -/
theorem exec_next (i : Instr) (s : State) : ∃ t, exec i s = .next t := by
  cases i with
  | halt => exact ⟨_, rfl⟩
  | noop => exact ⟨_, rfl⟩
  | ret =>
    change ∃ t, execRet s = .next t
    unfold execRet
    split <;> exact ⟨_, rfl⟩
  | _ => exact complete_next _ s _

/-- The converse of `exec_cases`: where its checks pass, an instruction has its effect. -/
theorem exec_of_effect {i : Instr} {s t : State} (h : Effect i s t) : exec i s = .next t := by
  cases h with
  | halt => rfl
  | noop => rfl
  | set hb ha =>
    simp [exec, execSet, unaryResult, rd_of_resolve _ hb, destok_of_dest _ ha]
  | push ha room => simp [exec, execPush, rd_of_resolve _ ha, stackRoom_ok.2 room]
  | pop hs ha =>
    simp [exec, execPop, pop?_some.2 ⟨_, hs, rfl⟩, destok_of_dest _ ha]
  | eq hb hc ha =>
    simp [exec, execEq, binaryResult, rd_of_resolve _ hb, rd_of_resolve _ hc, destok_of_dest _ ha]
  | gt hb hc ha =>
    simp [exec, execGt, binaryResult, rd_of_resolve _ hb, rd_of_resolve _ hc, destok_of_dest _ ha]
  | jmp ha => simp [exec, execJmp, rd_of_resolve _ ha]
  | jtTaken ha hv hb =>
    simp [exec, execJt, conditionalJump, rd_of_resolve _ ha, hv, rd_of_resolve _ hb]
  | jtUntaken ha hv => simp [exec, execJt, conditionalJump, rd_of_resolve _ ha, hv]
  | jfTaken ha hv hb =>
    simp [exec, execJf, conditionalJump, rd_of_resolve _ ha, hv, rd_of_resolve _ hb]
  | jfUntaken ha hv => simp [exec, execJf, conditionalJump, rd_of_resolve _ ha, hv]
  | add hb hc ha =>
    simp [exec, execAdd, binaryResult, rd_of_resolve _ hb, rd_of_resolve _ hc, destok_of_dest _ ha]
  | mult hb hc ha =>
    simp [exec, execMult, binaryResult, rd_of_resolve _ hb, rd_of_resolve _ hc, destok_of_dest _ ha]
  | mod hb hc hz ha =>
    simp only [exec, execMod, rd_of_resolve _ hb, rd_of_resolve _ hc, except_ok_bind, if_neg hz,
      destok_of_dest _ ha, complete_ok]
  | and hb hc ha =>
    simp [exec, execAnd, binaryResult, rd_of_resolve _ hb, rd_of_resolve _ hc, destok_of_dest _ ha]
  | or hb hc ha =>
    simp [exec, execOr, binaryResult, rd_of_resolve _ hb, rd_of_resolve _ hc, destok_of_dest _ ha]
  | not hb ha => simp [exec, execNot, unaryResult, rd_of_resolve _ hb, destok_of_dest _ ha]
  | rmem hb hm ha => simp [exec, execRmem, rd_of_resolve _ hb, hm, destok_of_dest _ ha]
  | wmem ha hb hlt =>
    simp [exec, execWmem, rd_of_resolve _ ha, rd_of_resolve _ hb, memWrite_ok.2 ⟨hlt, rfl⟩]
  | call ha room => simp [exec, execCall, rd_of_resolve _ ha, stackRoom_ok.2 room]
  | retHalt hs => simp [exec, execRet, pop?_none.2 hs]
  | retJump hs => simp [exec, execRet, pop?_some.2 ⟨_, hs, rfl⟩]
  | out ha => simp [exec, execOut, rd_of_resolve _ ha]
  | inpWait ha hq => simp [exec, execInp, destok_of_dest _ ha, deq?_none.2 hq]
  | inpTake ha hq => simp [exec, execInp, destok_of_dest _ ha, deq?_some.2 ⟨_, hq, rfl⟩]

end Sys2Proof.Machine
end

