-- ==== Sys2Proof/Laws/Decode.lean ====
section
/-! SUPPORT. The small laws of the decoder and the encoder: the opcode table is read both ways, an
operand's class and its word agree, and the bytes of a word give it back. -/

namespace Sys2Proof

@[simp] theorem opOfWord_opcodeWord (o : Op) : opOfWord (opcodeWord o) = some o := by
  cases o <;> decide

theorem opOfWord_some_iff {w : Word} {o : Op} : opOfWord w = some o ↔ w = opcodeWord o := by
  constructor
  · intro h
    have hlt : w.toNat < 22 := by
      by_contra hge
      have : opOfWord w = none := by
        simp only [opOfWord, opcodeMap, List.cons_append, List.nil_append]
        simp only [List.find?]
        have hne : ∀ n : Nat, n < 22 → (n == w.toNat) = false := by
          intro n hn; simp; omega
        simp [hne]
      simp [this] at h
    have hw : w = BitVec.ofNat 16 w.toNat := by simp
    rw [hw] at h ⊢
    generalize w.toNat = n at *
    interval_cases n <;> (revert h; cases o <;> decide)
  · rintro rfl; exact opOfWord_opcodeWord o

theorem opOfWord_none_iff {w : Word} : opOfWord w = none ↔ 22 ≤ w.toNat := by
  constructor
  · intro h
    by_contra hlt
    have hw : w = BitVec.ofNat 16 w.toNat := by simp
    rw [hw] at h
    have : w.toNat < 22 := by omega
    generalize w.toNat = n at *
    interval_cases n <;> (revert h; decide)
  · intro h
    cases ho : opOfWord w with
    | none => rfl
    | some o =>
      rw [opOfWord_some_iff.1 ho] at h
      revert h; cases o <;> decide

@[simp] theorem decodeOperand_literal (v : Lit) :
    decodeOperand (encodeOperand (.literal v)) = .literal v := by
  have h : (BitVec.setWidth 16 v).toNat = v.toNat := by
    simp; omega
  have hlt : v.toNat < 32768 := v.isLt
  simp [decodeOperand, encodeOperand, h, hlt]

@[simp] theorem decodeOperand_reg (r : Fin 8) :
    decodeOperand (encodeOperand (.reg r)) = .reg r := by
  revert r; decide

/-- The word of a well-formed operand is read as that operand. -/
theorem decodeOperand_encodeOperand {o : Operand} (h : o.wf = true) :
    decodeOperand (encodeOperand o) = o := by
  cases o with
  | literal v => simp
  | reg r => simp
  | invalid w =>
    simp only [Operand.wf, decide_eq_true_eq, Config.invalidBase] at h
    have h1 : ¬ w.toNat < Config.regBase := by simp only [Config.regBase]; omega
    have h2 : ¬ w.toNat < Config.invalidBase := by simp only [Config.invalidBase] at *; omega
    simp [decodeOperand, encodeOperand, h1, h2]

/-- Every word is the word of the operand it is read as. -/
@[simp] theorem encodeOperand_decodeOperand (w : Word) : encodeOperand (decodeOperand w) = w := by
  unfold decodeOperand
  split
  · rename_i h
    simp only [encodeOperand, Config.regBase] at *
    apply BitVec.eq_of_toNat_eq
    simp; omega
  · split
    · rename_i h1 h2
      simp only [encodeOperand, Config.regBase, Config.invalidBase] at *
      apply BitVec.eq_of_toNat_eq
      simp [Fin.ofNat]; omega
    · rfl

theorem decodeOperand_wf (w : Word) : (decodeOperand w).wf = true := by
  unfold decodeOperand
  split
  · rfl
  · split
    · rfl
    · simp [Operand.wf]; omega

/-- The two bytes of a word give it back. -/
theorem wordOfBytes_bytes (w : Word) :
    wordOfBytes (BitVec.ofNat 8 (w.toNat % 256)) (BitVec.ofNat 8 (w.toNat / 256)) = w := by
  apply BitVec.eq_of_toNat_eq
  have := w.isLt
  simp only [wordOfBytes, BitVec.toNat_append, BitVec.toNat_ofNat]
  rw [Nat.shiftLeft_eq, Nat.mod_mod_of_dvd _ (by norm_num : (2 ^ 8 : Nat) ∣ 256)]
  rw [Nat.mod_eq_of_lt (show w.toNat / 256 < 2 ^ 8 by omega)]
  rw [← Nat.shiftLeft_eq, ← Nat.shiftLeft_add_eq_or_of_lt (by omega)]
  rw [Nat.shiftLeft_eq]; omega

/-- Every word the decoder read is the word of the instruction it answers, at its place. -/
theorem decodeFrom_words {ε : Type} {word : Nat → Except ε Word} {unknown : Word → ε} {i : Instr}
    (h : decodeFrom word unknown = .ok i) (k : Nat) (hk : k < (encode i).length) :
    word k = .ok ((encode i)[k]) := by
  obtain ⟨w, hw, h⟩ := except_bind_ok.1 h
  split at h
  · cases h
  · rename_i o ho
    obtain rfl := opOfWord_some_iff.1 ho
    cases o <;>
      simp only [readOperands, readOne, readTwo, readThree, except_bind_ok] at h
    all_goals
      first
      | obtain ⟨a, ha, b, hb, c, hc, h⟩ := h; cases h
      | obtain ⟨a, ha, b, hb, h⟩ := h; cases h
      | obtain ⟨a, ha, h⟩ := h; cases h
      | cases h
    all_goals
      simp only [encode, Instr.operands, List.map_cons, List.map_nil, List.length_cons,
        List.length_nil] at hk
      interval_cases k <;> simp_all [encode, Instr.operands, Instr.op]

/-- What the decoder answers is well formed. -/
theorem decodeFrom_wf {ε : Type} {word : Nat → Except ε Word} {unknown : Word → ε} {i : Instr}
    (h : decodeFrom word unknown = .ok i) : i.wf = true := by
  obtain ⟨w, hw, h⟩ := except_bind_ok.1 h
  split at h
  · cases h
  · rename_i o ho
    cases o <;>
      simp only [readOperands, readOne, readTwo, readThree, except_bind_ok] at h
    all_goals
      first
      | obtain ⟨a, ha, b, hb, c, hc, h⟩ := h; cases h
      | obtain ⟨a, ha, b, hb, h⟩ := h; cases h
      | obtain ⟨a, ha, h⟩ := h; cases h
      | cases h
    all_goals simp only [Instr.wf, Instr.operands, decodeOperand_wf, List.all_cons, List.all_nil,
      Bool.and_self]

/-- The decoder's error is the unknown opcode, or the error of one of the words it reads. -/
theorem decodeFrom_error {ε : Type} {word : Nat → Except ε Word} {unknown : Word → ε} {e : ε}
    (h : decodeFrom word unknown = .error e) :
    (∃ k, word k = .error e) ∨ (∃ w, word 0 = .ok w ∧ opOfWord w = none ∧ e = unknown w) := by
  obtain h | ⟨w, hw, h⟩ := Machine.except_bind_error_iff.1 h
  · exact .inl ⟨0, h⟩
  split at h
  · cases h; exact .inr ⟨w, hw, ‹_›, rfl⟩
  · rename_i o ho
    left
    cases o <;>
      simp only [readOperands, readOne, readTwo, readThree, Machine.except_bind_error_iff] at h
    all_goals try cases h; done
    all_goals
      obtain h | ⟨_, _, h⟩ := h
      · exact ⟨_, h⟩
      try cases h; done
    all_goals
      obtain h | ⟨_, _, h⟩ := h
      · exact ⟨_, h⟩
      try cases h; done
    all_goals
      obtain h | ⟨_, _, h⟩ := h
      · exact ⟨_, h⟩
      cases h

namespace Machine

theorem Memory.read_cellsFrom (ws : List Word) (a i : Nat) :
    Memory.read (cellsFrom a ws) (a + i) = ws[i]? := by
  induction ws generalizing a i with
  | nil => rfl
  | cons w ws ih =>
    cases i with
    | zero => simp [cellsFrom, Memory.read]
    | succ i =>
      simp only [cellsFrom, Memory.read, List.getElem?_cons_succ]
      rw [if_neg (by omega), ← ih (a + 1) i, Nat.add_right_comm, Nat.add_assoc]

/-- Cell `i` of a loaded image holds word `i`; the cells after the image are undefined
(10_state.md rule R41). -/
theorem read_imageMemory (image : List Word) (i : Nat) :
    Memory.read (imageMemory image) i = image[i]? := by
  have h := Memory.read_cellsFrom image 0 i
  rwa [Nat.zero_add] at h

end Machine

end Sys2Proof
end

