-- ==== Sys2Proof/Laws/PerInstr.lean ====
section
/-! SUPPORT. Statements made per instruction. `EncodedLength`: an instruction's encoding has the length
the opcode table gives its opcode (30_encoding.md rule R83). -/

namespace Sys2Proof.Laws.EncodedLength

/-- The encoding of `i` has the length of its opcode. -/
def Statement (i : Sys2Proof.Instr) : Prop :=
  (Sys2Proof.encode i).length = Sys2Proof.opLength i.op

theorem halt : Statement .halt := rfl
theorem set (a b : Operand) : Statement (.set a b) := rfl
theorem push (a : Operand) : Statement (.push a) := rfl
theorem pop (a : Operand) : Statement (.pop a) := rfl
theorem eq (a b c : Operand) : Statement (.eq a b c) := rfl
theorem gt (a b c : Operand) : Statement (.gt a b c) := rfl
theorem jmp (a : Operand) : Statement (.jmp a) := rfl
theorem jt (a b : Operand) : Statement (.jt a b) := rfl
theorem jf (a b : Operand) : Statement (.jf a b) := rfl
theorem add (a b c : Operand) : Statement (.add a b c) := rfl
theorem mult (a b c : Operand) : Statement (.mult a b c) := rfl
theorem mod (a b c : Operand) : Statement (.mod a b c) := rfl
theorem and (a b c : Operand) : Statement (.and a b c) := rfl
theorem or (a b c : Operand) : Statement (.or a b c) := rfl
theorem not (a b : Operand) : Statement (.not a b) := rfl
theorem rmem (a b : Operand) : Statement (.rmem a b) := rfl
theorem wmem (a b : Operand) : Statement (.wmem a b) := rfl
theorem call (a : Operand) : Statement (.call a) := rfl
theorem ret : Statement .ret := rfl
theorem out (a : Operand) : Statement (.out a) := rfl
theorem inp (a : Operand) : Statement (.inp a) := rfl
theorem noop : Statement .noop := rfl

end Sys2Proof.Laws.EncodedLength
end

