-- ==== Sys2Proof/Laws/Step.lean ====
section
/-! SUPPORT. What a step can do, said once. -/

namespace Sys2Proof.Machine

/-- A step of a Running core takes a fetch or decode exception, or executes the fetched instruction
in the traced state. -/
theorem step_running_cases {s t : State} (hr : s.rs = .running) (h : step s = .next t) :
    (∃ e, fetch s = .error e ∧ t = s.raise (fetchedOpcode s) e) ∨
    (∃ i, fetch s = .ok i ∧ exec i (s.traced i) = .next t) := by
  simp only [step, hr, cycle] at h
  split at h
  · left; exact ⟨_, ‹_›, by simpa using h.symm⟩
  · right; exact ⟨_, ‹_›, h⟩

/-- A step answers a next state only in Running and AwaitingInput, and in the latter it is the host's
next move. -/
theorem step_next_cases {s t : State} (h : step s = .next t) :
    s.rs = .running ∨
    (s.rs = .awaitingInput ∧ ∃ rest,
      (∃ line, s.host = .supplyLine line :: rest ∧
        t = (s.setHost rest).supplyLine line) ∨
      (s.host = .debugAssist :: rest ∧ t = (s.setHost rest).debugAssist)) := by
  unfold step at h
  split at h
  · exact .inl ‹_›
  · refine .inr ⟨‹_›, ?_⟩
    unfold hostTurn at h
    split at h
    · cases h
    · exact ⟨_, .inl ⟨_, ‹_›, by simpa using h.symm⟩⟩
    · exact ⟨_, .inr ⟨‹_›, by simpa using h.symm⟩⟩
  · cases h
  · cases h

/-- A Running core always has a step. -/
theorem step_running_next {s : State} (hr : s.rs = .running) : ∃ t, step s = .next t := by
  simp only [step, hr, cycle]
  split
  · exact ⟨_, rfl⟩
  · exact exec_next _ _

/-- Where the invariant holds the host reads `ERR` as it stands. -/
theorem State.Inv.readStatus_err {s : State} (h : s.Inv) : (readStatus s).err = s.err := by
  by_cases hf : s.rs = .faulted
  · exact readStatus_err_of_faulted hf
  · rw [readStatus_err_of_not_faulted hf]
    cases he : s.err with
    | none => rfl
    | some e => exact absurd (h.errPresent.1 (by simp [he])) hf

/-- No effect of an instruction touches ERR, TRACE_EN, the trace, the parameters or the host's list. -/
theorem Effect.frame {i : Instr} {s t : State} (h : Effect i s t) :
    t.err = s.err ∧ t.traceEn = s.traceEn ∧ t.traceLog = s.traceLog ∧ t.params = s.params ∧
      t.host = s.host := by
  cases h <;> simp

/-- An effect leaves the run state, or halts, or suspends and changes nothing else. -/
theorem Effect.rs_cases {i : Instr} {s t : State} (h : Effect i s t) :
    t.rs = s.rs ∨ (t.rs = .halted ∧ (i = .halt ∨ i = .ret ∧ s.stack = [])) ∨
    (t = s.setRs .awaitingInput ∧ s.inq = [] ∧ ∃ a d, i = .inp a ∧ destOf a = some d) := by
  cases h
  case inpWait a d ha hq => exact .inr (.inr ⟨rfl, hq, a, d, rfl, ha⟩)
  all_goals simp_all

/-- An effect keeps the memory in canonical form. -/
theorem Effect.memory_wf {i : Instr} {s t : State} (h : Effect i s t) (hw : s.mem.wf = true) :
    t.mem.wf = true := by
  cases h
  case wmem => exact Memory.wf_write _ hw ‹_›
  case pop => exact State.wr_mem_wf (by exact hw) _ _
  case inpTake => exact State.wr_mem_wf (by exact hw) _ _
  all_goals first
    | exact hw
    | exact State.wr_mem_wf hw _ _

end Sys2Proof.Machine
end

