-- ==== Sys2Proof/Tests/Slice0.lean ====
section
/-! SUPPORT. Tests of the model and witnesses of the statements. The expected values are those of
95_test_vectors.md (the vector is named in the docstring) or of the rule named; none is taken from the
model. -/

namespace Sys2Proof.Tests

open Sys2Proof Sys2Proof.Machine

/-! ### Helpers -/

/-- The reset state with these words loaded from address 0. -/
def image (ws : List Word) : State := { State.reset with mem := imageMemory ws }

/-- The reset state with these words loaded from address `addr` and `pc` there. -/
def imageAt (addr : Nat) (ws : List Word) : State :=
  { State.reset with mem := cellsFrom addr ws, pc := BitVec.ofNat 16 addr }

/-- The state answered, if one is. -/
def after : Result → Option State
  | .next t => some t
  | .fault _ => none
  | .refused _ => none

/-- One step of a state, if there is one. -/
def next (s : State) : Option State := after (step s)

/-- What a test looks at: `x[0]`, pc, run state. -/
def view (s : State) : Word × Word × RunState := (s.reg 0, s.pc, s.rs)

/-- What a test of an exception looks at: the report and the run state. -/
def report (s : State) : Option Err × RunState := (s.err, s.rs)

/-! ### Ill-formed terms are refused -/

/-- 32775 names register 7, so no operand of the class invalid carries it (rule R84). -/
theorem test_wf_refuses_invalid_a : Instr.wf (.set (.invalid 32775) (.literal 0)) = false := by
  decide

theorem test_wf_refuses_invalid_b : Instr.wf (.jt (.reg 0) (.invalid 0)) = false := by decide

theorem test_wf_refuses_invalid_c :
    Instr.wf (.add (.reg 0) (.reg 0) (.invalid 32767)) = false := by decide

theorem test_wf_accepts_invalid :
    Instr.wf (.add (.invalid 32776) (.reg 7) (.invalid 65535)) = true := by decide

/-! ### Decoding: a word written out from 30_encoding.md rules R81, R84, R87 for each constructor -/

theorem test_decode_halt_noop_ret :
    decode [0x0000#16] = .ok (.halt, []) ∧
    decode [0x0015#16, 0x0000#16] = .ok (.noop, [0x0000#16]) ∧
    decode [0x0012#16] = .ok (.ret, []) := ⟨rfl, rfl, rfl⟩

theorem test_decode_move_stack :
    decode [0x0001#16, 0x8007#16, 0x7FFF#16] = .ok (.set (.reg 7) (.literal 32767), []) ∧
    decode [0x0002#16, 0x04D2#16] = .ok (.push (.literal 1234), []) ∧
    decode [0x0003#16, 0x8002#16] = .ok (.pop (.reg 2), []) := ⟨rfl, rfl, rfl⟩

theorem test_decode_compare :
    decode [0x0004#16, 0x8000#16, 0x8001#16, 0x0004#16] =
      .ok (.eq (.reg 0) (.reg 1) (.literal 4), []) ∧
    decode [0x0005#16, 0x8000#16, 0x0006#16, 0x0005#16] =
      .ok (.gt (.reg 0) (.literal 6) (.literal 5), []) := ⟨rfl, rfl⟩

theorem test_decode_jumps :
    decode [0x0006#16, 0x8003#16] = .ok (.jmp (.reg 3), []) ∧
    decode [0x0007#16, 0x8000#16, 0x0032#16] = .ok (.jt (.reg 0) (.literal 50), []) ∧
    decode [0x0008#16, 0x8000#16, 0x8008#16] = .ok (.jf (.reg 0) (.invalid 32776), []) :=
  ⟨rfl, rfl, rfl⟩

theorem test_decode_arithmetic :
    decode [0x0009#16, 0x8001#16, 0x8000#16, 0x0004#16] =
      .ok (.add (.reg 1) (.reg 0) (.literal 4), []) ∧
    decode [0x000A#16, 0x8000#16, 0x8001#16, 0x8002#16] =
      .ok (.mult (.reg 0) (.reg 1) (.reg 2), []) ∧
    decode [0x000B#16, 0x8000#16, 0x000A#16, 0x0003#16] =
      .ok (.mod (.reg 0) (.literal 10) (.literal 3), []) := ⟨rfl, rfl, rfl⟩

theorem test_decode_logical :
    decode [0x000C#16, 0x8000#16, 0x5555#16, 0x3333#16] =
      .ok (.and (.reg 0) (.literal 21845) (.literal 13107), []) ∧
    decode [0x000D#16, 0x8000#16, 0x5555#16, 0x3333#16] =
      .ok (.or (.reg 0) (.literal 21845) (.literal 13107), []) ∧
    decode [0x000E#16, 0x8000#16, 0x8001#16] = .ok (.not (.reg 0) (.reg 1), []) :=
  ⟨rfl, rfl, rfl⟩

theorem test_decode_memory :
    decode [0x000F#16, 0x8001#16, 0x0003#16] = .ok (.rmem (.reg 1) (.literal 3), []) ∧
    decode [0x0010#16, 0x0006#16, 0x8000#16] = .ok (.wmem (.literal 6) (.reg 0), []) := ⟨rfl, rfl⟩

theorem test_decode_call_io :
    decode [0x0011#16, 0x0007#16] = .ok (.call (.literal 7), []) ∧
    decode [0x0013#16, 0x8001#16] = .ok (.out (.reg 1), []) ∧
    decode [0x0014#16, 0x01F4#16] = .ok (.inp (.literal 500), []) := ⟨rfl, rfl, rfl⟩

/-- Vectors V-F1, V-F2: the opcode word is matched whole (rule R82), so 0x0100 is no HALT. -/
theorem test_decode_refuses :
    decode [22#16] = .error (.unknownOpcode 22) ∧
    decode [0x0100#16] = .error (.unknownOpcode 256) ∧
    decode [65535#16] = .error (.unknownOpcode 65535) ∧
    decode [1#16, 32768#16] = .error (.truncated 2) ∧ decode [] = .error (.truncated 0) :=
  ⟨rfl, rfl, rfl, rfl, rfl⟩

/-- Instance S1 of the source's round trip, as bytes. -/
theorem test_decode_bytes :
    decodeBytes [0x01#8, 0x00#8, 0x00#8, 0x80#8, 0x03#8, 0x00#8] =
      .ok (.set (.reg 0) (.literal 3), []) ∧
    bytesOfWords [1#16, 32768#16, 3#16] = [0x01#8, 0x00#8, 0x00#8, 0x80#8, 0x03#8, 0x00#8] :=
  ⟨rfl, rfl⟩

/-- `ADD r1, r0, 4` numbered as the opcode table numbers it, and HALT with no bit given. -/
theorem test_decode_table_word :
    decodeTableWord 64 0x0004800080010009 = some (.add (.reg 1) (.reg 0) (.literal 4)) ∧
    decodeTableWord 16 0 = some .halt ∧ decodeTableWord 16 22 = none := ⟨rfl, rfl, rfl⟩

theorem test_fetch_word_runs :
    next (State.reset.withFetchWord 48 0x000380000001) = next (image [1, 32768, 3, 0]) := by decide

/-! ### One step of each instruction -/

/-- V-H2. -/
theorem test_halt :
    (next { image [0] with stack := [9], inq := [65] }).map (fun t => (t.stack, t.inq, view t)) =
      some ([9], [65], 0, 0, .halted) := by decide

/-- V-N2: pc reaches 32768 and does not wrap. -/
theorem test_noop : (next (imageAt 32767 [21])).map view = some (0, 32768, .running) := by decide

/-- V-F9: `rd` does not resolve twice. -/
theorem test_set_register :
    (next (((image [1, 32768, 32771]).setReg 3 32769).setReg 1 5)).map view =
      some (32769, 3, .running) := by decide

/-- V-S5: SET over its own opcode word. -/
theorem test_set_cell :
    (next (image [1, 0, 21])).map (fun t => (t.mem, t.pc)) = some ([(0, 21), (1, 0), (2, 21)], 3) := by
  decide

/-- V-ST7. -/
theorem test_push : (next (image [2, 100])).map (fun t => (t.stack, t.pc)) = some ([100], 2) := by
  decide

/-- V-CR8, for PUSH. -/
theorem test_push_full :
    (next { image [2, 7] with params := { memFill := none, stackDepth := some 1 },
                              stack := [4] }).map (fun t => (t.err.map Err.cause, t.stack)) =
      some (some .stackOverflow, [4]) := by decide

/-- V-ST6. -/
theorem test_pop :
    (next { image [3, 50] with stack := [1, 2] }).map
      (fun t => (t.mem.read 50, t.stack, t.pc)) = some (some 2, [1], 2) := by decide

/-- V-ST5: the empty stack is tested before the destination. -/
theorem test_pop_empty :
    (next (image [3, 40000])).map report =
      some (some { cause := .stackUnderflow, subCause := none, opcode := some 3, pc := 0,
                   operands := [.operand .a 40000 none] }, .faulted) := by decide

/-- V-C4: no reduction before comparing. -/
theorem test_eq :
    (next ((image [4, 32768, 32769, 0]).setReg 1 32768)).map view = some (0, 4, .running) := by decide

/-- V-C9, and V-C6. -/
theorem test_gt :
    (next ((image [5, 32768, 32769, 32767]).setReg 1 40000)).map view = some (1, 4, .running) ∧
    (next (image [5, 32768, 5, 5])).map view = some (0, 4, .running) := by decide

/-- V-J11: an unchecked target. -/
theorem test_jmp :
    (next ((image [6, 32768]).setReg 0 40000)).map view = some (40000, 40000, .running) := by decide

/-- V-J12, V-J7. -/
theorem test_jt :
    (next ((image [7, 32768, 9]).setReg 0 32768)).map view = some (32768, 9, .running) ∧
    (next (image [7, 0, 40000, 0])).map view = some (0, 3, .running) := by decide

/-- V-J5, V-J6. -/
theorem test_jf :
    (next (image [8, 32768, 50])).map view = some (0, 50, .running) ∧
    (next ((image [8, 32768, 50]).setReg 0 1)).map view = some (1, 3, .running) := by decide

/-- V-A6, V-A7. -/
theorem test_add :
    (next ((image [9, 32768, 32769, 1]).setReg 1 40000)).map view = some (7233, 4, .running) ∧
    (next (image [9, 300, 7, 8])).map (fun t => t.mem.read 300) = some (some 15) := by decide

/-- V-F13: a source is reported before the destination. -/
theorem test_add_invalid :
    (next (image [9, 32776, 32777, 0])).map report =
      some (some { cause := .invalidOperand, subCause := none, opcode := some 9, pc := 0,
                   operands := [.operand .b 32777 none] }, .faulted) := by decide

/-- V-M6, V-M4. -/
theorem test_mult :
    (next ((image [10, 32768, 32769, 32769]).setReg 1 65535)).map view = some (1, 4, .running) ∧
    (next (image [10, 32768, 181, 182])).map view = some (174, 4, .running) := by decide

/-- V-D9, V-D6. -/
theorem test_mod :
    (next (((image [11, 32768, 32769, 32770]).setReg 1 40000).setReg 2 50000)).map view =
      some (7232, 4, .running) ∧
    (next (image [11, 32768, 32767, 32766])).map view = some (1, 4, .running) := by decide

/-- V-D10: the zero divisor is tested before the destination. -/
theorem test_mod_zero :
    (next (image [11, 32776, 3, 0])).map report =
      some (some { cause := .invalidOperand, subCause := some .divisorZero, opcode := some 11,
                   pc := 0, operands := [.operand .c 0 (some 0)] }, .faulted) := by decide

/-- V-L1. -/
theorem test_and :
    (next (image [12, 32768, 21845, 13107])).map view = some (4369, 4, .running) := by decide

/-- V-L6. -/
theorem test_or :
    (next ((image [13, 32768, 32769, 0]).setReg 1 65535)).map view =
      some (65535, 4, .running) := by decide

/-- V-L9, V-L10. -/
theorem test_not :
    (next (image [14, 32768, 21845])).map view = some (10922, 3, .running) ∧
    (next ((image [14, 32768, 32769]).setReg 1 40000)).map view = some (25535, 3, .running) := by
  decide

/-- V-R2: the raw word of the cell, not the register it names. -/
theorem test_rmem :
    (next ((image [15, 32768, 32770]).setReg 2 1)).map view = some (32768, 3, .running) := by decide

/-- V-R6, V-R3. -/
theorem test_rmem_faults :
    (next ((image [15, 32768, 32769]).setReg 1 32768)).map report =
      some (some { cause := .addressFault, subCause := none, opcode := some 15, pc := 0,
                   operands := [.address 32768, .operand .b 32769 (some 32768)] }, .faulted) ∧
    (next (image [15, 32768, 100])).map report =
      some (some { cause := .unwrittenRead, subCause := none, opcode := some 15, pc := 0,
                   operands := [.address 100] }, .faulted) := by decide

/-- V-W2. -/
theorem test_wmem :
    (next ((image [16, 32769, 65]).setReg 1 300)).map (fun t => (t.mem.read 300, t.reg 1, t.pc)) =
      some (some 65, 300, 3) := by decide

/-- V-W3. -/
theorem test_wmem_fault :
    (next ((image [16, 32769, 5]).setReg 1 32768)).map
      (fun t => (t.err.map Err.cause, t.reg 0, t.mem.length)) =
      some (some .addressFault, 0, 3) := by decide

/-- V-CR7: the return address 32768 is pushed. -/
theorem test_call :
    (next (imageAt 32766 [17, 5])).map (fun t => (t.stack, t.pc)) = some ([32768], 5) := by decide

/-- V-CR2, V-CR3. -/
theorem test_ret :
    (next { imageAt 21 [18] with stack := [2] }).map (fun t => (t.stack, t.pc)) = some ([], 2) ∧
    (next (image [18])).map view = some (0, 0, .halted) := by decide

/-- V-O3. -/
theorem test_out :
    (next ((image [19, 32768]).setReg 0 65535)).map (fun t => (t.outLog, t.pc)) =
      some ([65535], 2) := by decide

/-- V-I1, V-I2. -/
theorem test_in :
    (next { image [20, 32768] with inq := [104, 105, 10] }).map (fun t => (t.inq, view t)) =
      some ([105, 10], 104, 2, .running) ∧
    (next (image [20, 32768])).map view = some (0, 0, .awaitingInput) := by decide

/-- V-I6: an invalid destination faults at once. -/
theorem test_in_invalid :
    (next (image [20, 32776])).map report =
      some (some { cause := .invalidOperand, subCause := none, opcode := some 20, pc := 0,
                   operands := [.operand .a 32776 none] }, .faulted) := by decide

/-! ### Fetch and the host -/

/-- V-F5, V-F7: the opcode word itself cannot be fetched. -/
theorem test_fetch_opcode :
    (next (image [])).map report =
      some (some { cause := .unwrittenRead, subCause := none, opcode := none, pc := 0,
                   operands := [.address 0] }, .faulted) ∧
    (next (imageAt 32768 [])).map report =
      some (some { cause := .addressFault, subCause := none, opcode := none, pc := 32768,
                   operands := [.address 32768] }, .faulted) := by decide

/-- V-F8: no wrap at the top. -/
theorem test_fetch_top :
    (next (imageAt 32766 [1, 32768])).map report =
      some (some { cause := .addressFault, subCause := none, opcode := some 1, pc := 32766,
                   operands := [.address 32768] }, .faulted) := by decide

/-- V-F3, V-F6. -/
theorem test_fetch_unknown_and_fill :
    (next (image [22])).map report =
      some (some { cause := .unknownOpcode, subCause := none, opcode := some 22, pc := 0,
                   operands := [] }, .faulted) ∧
    (next { image [] with params := { memFill := some 0, stackDepth := none } }).map view =
      some (0, 0, .halted) := by decide

/-- A suspended `IN r0` with this list of the host's moves. -/
def waiting (moves : List HostAction) : State :=
  { image [20, 32768, 0] with rs := .awaitingInput, host := moves }

/-- V-I4, V-I5. -/
theorem test_host :
    (next (waiting [.supplyLine []])).map (fun t => (t.inq, view t)) = some ([10], 0, 0, .running) ∧
    (next (waiting [.debugAssist])).map (fun t => (t.reg 7, t.traceEn, t.rs)) =
      some (1, true, .awaitingInput) := by decide

/-- 90_conflicts.md C5: the status read identifies the HALT and the RET that halted; V-F1: it reports the
failing instruction; V-I5: it shows TRACE_EN (rule R37). -/
theorem test_status :
    (next (imageAt 6 [0])).map readStatus =
      some { rs := .halted, err := none, traceEn := false, pc := 6 } ∧
    (next (imageAt 19 [18])).map readStatus =
      some { rs := .halted, err := none, traceEn := false, pc := 19 } ∧
    (next (imageAt 18 [22])).map readStatus =
      some { rs := .faulted,
             err := some { cause := .unknownOpcode, subCause := none, opcode := some 22, pc := 18,
                           operands := [] },
             traceEn := false, pc := 18 } ∧
    (next (waiting [.debugAssist])).map readStatus =
      some { rs := .awaitingInput, err := none, traceEn := true, pc := 0 } := by decide

/-! ### Witnesses: the hypotheses of every statement that has some are met -/

/-- A Running core with a finite stack that is full and one entry. -/
def full : State :=
  { image [2, 7] with params := { memFill := none, stackDepth := some 1 }, stack := [4] }

theorem witness_DecodeOfEncode :
    Instr.wf (.jt (.invalid 32776) (.literal 32767)) = true ∧
    Instr.wf (.add (.invalid 65535) (.reg 7) (.literal 0)) = true := by decide

theorem witness_EncodeOfDecode :
    decode [3#16, 65535#16, 9#16] = .ok (.pop (.invalid 65535), [9]) := rfl

theorem witness_InstructionLengths :
    (∃ t, exec (.jmp (.literal 0)) (image []) = .next t) ∧
    decode [9#16, 1#16, 2#16, 3#16, 4#16] = .ok (.add (.literal 1) (.literal 2) (.literal 3), [4]) :=
  ⟨⟨_, rfl⟩, rfl⟩

theorem witness_ImageBytes : (List.replicate 32768 (21 : Word)).length ≤ 32768 :=
  List.length_replicate.le

theorem witness_ImageLoad :
    ([1, 128, 7] : List Byte)[2 * 0]? = some 1 ∧ ([1, 128, 7] : List Byte)[2 * 0 + 1]? = some 128 ∧
    ([1, 128, 7] : List Byte).length / 2 ≤ 32768 ∧
    (List.replicate 65537 (0 : Byte)).length / 2 ≤ 32768 ∧ ([1, 128] : List Byte).length % 2 = 0 := by
  refine ⟨rfl, rfl, by decide, ?_, rfl⟩
  rw [List.length_replicate]

theorem witness_Boot :
    (List.replicate 32768 (0 : Word)).length ≤ 32768 ∧
    32768 < (List.replicate 32769 (0 : Word)).length := by
  rw [List.length_replicate, List.length_replicate]
  decide

theorem witness_BootInvariant :
    ∃ s, boot Config.defaultParams [20, 32768] [65] [.debugAssist] = .next s := ⟨_, rfl⟩

/-- The suspended state meets the invariant and has a step: the invariant's last two clauses are not
empty there. -/
theorem witness_EveryStep :
    (waiting [.debugAssist]).Inv ∧ ∃ t, step (waiting [.debugAssist]) = .next t :=
  ⟨{ memory := by decide, stack := fun n h => (by cases h), errPresent := by decide,
     errPc := fun e h => (by cases h), waitQueue := fun _ => rfl,
     waitPc := fun _ => ⟨.reg 0, .reg 0, rfl, rfl⟩ }, _, rfl⟩

/-- The invariant also holds in a Faulted state and under a finite stack bound. -/
theorem witness_Invariant_clauses :
    ∃ t, step full = .next t ∧ t.rs = .faulted ∧ t.Inv :=
  ⟨_, rfl, rfl,
   { memory := by decide, stack := fun n h => (by cases h; decide), errPresent := by decide,
     errPc := fun e h => (by cases h; rfl), waitQueue := fun h => (by cases h),
     waitPc := fun h => (by cases h) }⟩

/-- A step for each of the six rows of the run-state table. -/
theorem witness_RunState :
    (next (image [21])).map State.rs = some .running ∧
    (next (image [18])).map State.rs = some .halted ∧
    (next (image [20, 32768])).map State.rs = some .awaitingInput ∧
    (next (image [3, 32768])).map State.rs = some .faulted ∧
    (next (waiting [.supplyLine []])).map State.rs = some .running ∧
    (next (waiting [.debugAssist])).map State.rs = some .awaitingInput := by decide

theorem witness_StepHasANextState :
    (image []).rs = .running ∧ (waiting [.debugAssist]).rs = .awaitingInput ∧
    (waiting [.debugAssist]).host ≠ [] ∧ (waiting []).rs = .awaitingInput ∧
    (waiting []).host = [] ∧ { image [] with rs := .halted }.rs = .halted ∧
    { image [] with rs := .faulted }.rs = .faulted := by decide

theorem witness_StepKeepsTheParameters :
    (∃ t, step full = .next t) ∧ full.rs = .running ∧
    (∃ t, step (waiting [.debugAssist]) = .next t) ∧
    (waiting [.debugAssist]).rs = .awaitingInput := ⟨⟨_, rfl⟩, rfl, ⟨_, rfl⟩, rfl⟩

/-- The last cell, with the trace on. -/
theorem witness_StepExecutes :
    { imageAt 32767 [21] with traceEn := true }.rs = .running ∧
    (∀ (k : Nat) (w : Word), [(21 : Word)][k]? = some w →
      fetchWord { imageAt 32767 [21] with traceEn := true } k = .ok w) ∧
    decode [21#16] = .ok (.noop, []) := by
  refine ⟨rfl, fun k w h => ?_, rfl⟩
  match k with
  | 0 => cases h; rfl
  | k + 1 => simp at h

theorem witness_FailingFetch :
    (imageAt 32768 []).rs = .running ∧ 32768 ≤ (imageAt 32768 []).pc.toNat ∧
    (imageAt 32767 []).pc.toNat < 32768 ∧ (imageAt 32767 []).mem.read 32767 = none ∧
    (imageAt 32767 []).params.memFill = none := by decide

theorem witness_FailingFetch_operand :
    fetchWord (imageAt 32766 [1, 32768]) 0 = .ok 1 ∧ opOfWord 1 = some .set ∧ 2 < opLength .set ∧
    (∀ j, j < 2 → ∃ v, fetchWord (imageAt 32766 [1, 32768]) j = .ok v) ∧
    32768 ≤ (imageAt 32766 [1, 32768]).pc.toNat + 2 ∧
    fetchWord (imageAt 32765 [1, 32768]) 0 = .ok 1 ∧
    (∀ j, j < 2 → ∃ v, fetchWord (imageAt 32765 [1, 32768]) j = .ok v) ∧
    (imageAt 32765 [1, 32768]).pc.toNat + 2 < 32768 ∧
    (imageAt 32765 [1, 32768]).mem.read (32765 + 2) = none := by
  refine ⟨rfl, rfl, by decide, fun j hj => ?_, by decide, rfl, fun j hj => ?_, by decide, rfl⟩
  all_goals
    match j, hj with
    | 0, _ => exact ⟨_, rfl⟩
    | 1, _ => exact ⟨_, rfl⟩

theorem witness_UnknownOpcode :
    fetchWord (image [22]) 0 = .ok 22 ∧ 22 ≤ (22 : Word).toNat ∧ (image [22]).rs = .running ∧
    (image [22]).err = none ∧
    ∃ t e, step (image [22]) = .next t ∧ t.err = some e ∧ e.cause = .unknownOpcode :=
  ⟨rfl, by decide, rfl, rfl, _, _, rfl, rfl, rfl⟩

/-- With a fetched opcode word and a sub-cause, and with none fetched. -/
theorem witness_ExceptionsArePrecise :
    (∃ t e, step (image [11, 32768, 3, 0]) = .next t ∧ t.rs = .faulted ∧ t.err = some e ∧
      e.subCause ≠ none) ∧ fetchWord (image [11, 32768, 3, 0]) 0 = .ok 11 ∧
    (∃ t, step (image []) = .next t ∧ t.rs = .faulted) ∧
    ∀ w, fetchWord (image []) 0 ≠ .ok w := by
  refine ⟨⟨_, _, rfl, rfl, rfl, by decide⟩, rfl, ⟨_, rfl, rfl⟩, fun w h => by cases h⟩

theorem witness_Underflow :
    (image [3, 32768]).stack = [] ∧ (image [3, 32768]).err = none ∧
    (∃ t e, exec (.pop (.reg 0)) (image [3, 32768]) = .next t ∧ t.err = some e ∧
      e.cause = .stackUnderflow) ∧
    ∃ t e, step (image [3, 32768]) = .next t ∧ t.err = some e ∧ e.cause = .stackUnderflow :=
  ⟨rfl, rfl, ⟨_, _, rfl, rfl, rfl⟩, _, _, rfl, rfl, rfl⟩

/-- An instruction that raises, for each of the five causes and for the sub-cause. -/
theorem witness_EveryException :
    (after (exec (.out (.invalid 32776)) (image []))).map (fun t => t.err.map Err.cause) =
      some (some .invalidOperand) ∧
    (after (exec (.mod (.reg 0) (.reg 0) (.reg 0)) (image []))).map
      (fun t => t.err.map Err.subCause) = some (some (some .divisorZero)) ∧
    (after (exec (.pop (.reg 0)) (image []))).map (fun t => t.err.map Err.cause) =
      some (some .stackUnderflow) ∧
    (after (exec (.wmem (.reg 0) (.reg 0)) ((image []).setReg 0 32768))).map
      (fun t => t.err.map Err.cause) = some (some .addressFault) ∧
    (after (exec (.rmem (.reg 0) (.literal 32767)) (image []))).map
      (fun t => t.err.map Err.cause) = some (some .unwrittenRead) ∧
    (after (exec (.call (.reg 0)) full)).map (fun t => t.err.map Err.cause) =
      some (some .stackOverflow) ∧ (image []).err = none ∧ full.err = none := by decide

/-- The clauses' boundary addresses 32767 and 32768. -/
theorem witness_MemoryReadsAndWrites :
    32768 ≤ 32768 ∧ (32767 : Nat) < 32768 ∧ (imageAt 32767 [5]).mem.read 32767 = some 5 ∧
    (image []).mem.read 32767 = none ∧ (image []).params.memFill = none ∧
    { image [] with params := { memFill := some 9, stackDepth := none } }.params.memFill =
      some 9 := by decide

/-- The boundary words 32767, 32768, 32775, 32776 of the three classes. -/
theorem witness_OperandWords :
    (32767 : Word).toNat < 32768 ∧ (32768 : Word).toNat = 32768 + (0 : Fin 8).val ∧
    (32775 : Word).toNat = 32768 + (7 : Fin 8).val ∧ 32776 ≤ (32776 : Word).toNat := by decide

theorem witness_OnlyListedReachMemory :
    (∃ t, exec (.set (.literal 5) (.literal 1)) (image []) = .next t ∧
      t.mem.read 5 ≠ (image []).mem.read 5) ∧
    (∃ t, exec (.wmem (.reg 0) (.literal 1)) (image []) = .next t ∧
      t.mem.read 0 ≠ (image []).mem.read 0) ∧
    (∃ t, exec .noop (image []) = .next t) ∧ Instr.op .noop ≠ .rmem :=
  ⟨⟨_, rfl, by decide⟩, ⟨_, rfl, by decide⟩, ⟨_, rfl⟩, by decide⟩

theorem witness_OnlyListedTouch :
    (∃ t, exec .noop (image []) = .next t) ∧ Instr.op .noop ≠ .push ∧ Instr.op .noop ≠ .pop ∧
    Instr.op .noop ≠ .call ∧ Instr.op .noop ≠ .ret ∧ Instr.op .noop ≠ .inp ∧
    Instr.op .noop ≠ .out := ⟨⟨_, rfl⟩, by decide⟩

theorem witness_ProgramCounter :
    (∃ t, exec (.jt (.literal 1) (.literal 9)) (image []) = .next t ∧ t.pc = 9) ∧
    (∃ t, exec .ret (image []) = .next t ∧ t.pc = 0) ∧
    (∃ t, exec (.out (.invalid 32776)) (image []) = .next t ∧ t.rs = .faulted) :=
  ⟨⟨_, rfl, rfl⟩, ⟨_, rfl, rfl⟩, ⟨_, rfl, rfl⟩⟩

/-- A source and a destination of each class, at the ends of the classes. -/
theorem witness_SourceAndDestination :
    SourceIs (image []) (.literal 32767) 32767 ∧ SourceIs (image []) (.reg 7) 0 ∧
    ValidWord (.literal 0) ∧ ValidWord (.literal 32767) ∧ ValidWord (.reg 0) ∧
    ValidWord (.reg 7) ∧ ¬ ValidWord (.invalid 32776) :=
  ⟨rfl, rfl, trivial, trivial, trivial, trivial, id⟩

/-- SET, NOT: a source with its value, a destination. -/
theorem witness_Set_Not : SourceIs ((image []).setReg 1 65535) (.reg 1) 65535 ∧
    ValidWord (.literal 100) := ⟨rfl, trivial⟩

/-- EQ, GT, ADD, MULT, AND, OR: two sources with their values, a destination. -/
theorem witness_TwoSources :
    SourceIs ((image []).setReg 1 65535) (.reg 1) 65535 ∧
    SourceIs ((image []).setReg 1 65535) (.literal 32767) 32767 ∧ ValidWord (.reg 1) :=
  ⟨rfl, rfl, trivial⟩

theorem witness_Mod :
    SourceIs (image []) (.literal 10) 10 ∧ SourceIs (image []) (.literal 1) 1 ∧ (1 : Word) ≠ 0 ∧
    ValidWord (.reg 0) := ⟨rfl, rfl, by decide, trivial⟩

/-- PUSH, CALL: unbounded, and with one place left. -/
theorem witness_Push_Call :
    SourceIs (image []) (.reg 0) 0 ∧
    (image []).params.stackDepth ≠ some (image []).stack.length ∧
    { full with stack := [] }.params.stackDepth ≠ some 0 := ⟨rfl, by decide⟩

theorem witness_Pop : full.stack = [] ++ [4] ∧ ValidWord (.literal 50) := ⟨rfl, trivial⟩

/-- JMP, OUT. -/
theorem witness_Jmp_Out : SourceIs ((image []).setReg 3 40000) (.reg 3) 40000 := rfl

/-- JT, JF: both conditions, and a target. -/
theorem witness_Jt_Jf :
    SourceIs (image []) (.literal 1) 1 ∧ (1 : Word) ≠ 0 ∧ SourceIs (image []) (.literal 0) 0 ∧
    SourceIs (image []) (.literal 32767) 32767 := ⟨rfl, by decide, rfl, rfl⟩

/-- RMEM: a defined cell, and an undefined one with MEM_FILL. -/
theorem witness_Rmem :
    SourceIs (image [5]) (.literal 0) 0 ∧ (image [5]).mem.read 0 = some 5 ∧ ValidWord (.reg 0) ∧
    SourceIs (image [5]) (.literal 32767) 32767 ∧ (32767 : Word).toNat < 32768 ∧
    { image [] with params := { memFill := some 9, stackDepth := none } }.mem.read 32767 = none :=
  ⟨rfl, rfl, trivial, rfl, by decide, rfl⟩

theorem witness_Wmem :
    SourceIs (image []) (.literal 32767) 32767 ∧ SourceIs (image []) (.reg 0) 0 ∧
    (32767 : Word).toNat < 32768 := ⟨rfl, rfl, by decide⟩

theorem witness_Call_top : (imageAt 32766 []).pc.toNat ≤ 32766 := by decide

theorem witness_Ret : full.stack = [] ++ [4] ∧ (image []).stack = [] := ⟨rfl, rfl⟩

theorem witness_In :
    { image [] with inq := [104, 10] }.inq = 104 :: [10] ∧ ValidWord (.reg 0) ∧
    (image []).inq = [] := ⟨rfl, trivial, rfl⟩

/-- The six instructions of the statement, and the words of its three clauses. -/
theorem witness_ThreeOperandChecks :
    Instr.or (.invalid 32776) (.reg 0) (.invalid 65535) =
      .or (.invalid 32776) (.reg 0) (.invalid 65535) ∧
    ¬ ValidWord (.invalid 32776) ∧ ValidWord (.reg 0) ∧ ¬ ValidWord (.invalid 65535) :=
  ⟨rfl, id, trivial, id⟩

/-- MOD: the zero divisor as a literal and as a register, and a divisor that is not 0. -/
theorem witness_ModChecks :
    SourceIs (image []) (.literal 0) 0 ∧ SourceIs (image []) (.reg 0) 0 ∧
    SourceIs (image []) (.literal 1) 1 ∧ (1 : Word) ≠ 0 ∧ ValidWord (.literal 3) ∧
    ¬ ValidWord (.invalid 32776) := ⟨rfl, rfl, rfl, by decide, trivial, id⟩

theorem witness_SetNotChecks :
    Instr.not (.invalid 32776) (.invalid 32776) = .not (.invalid 32776) (.invalid 32776) ∧
    ¬ ValidWord (.invalid 32776) ∧ ValidWord (.literal 0) := ⟨rfl, id, trivial⟩

theorem witness_SourceOnlyChecks :
    ¬ ValidWord (.invalid 32776) ∧ SourceIs (image []) (.literal 1) 1 ∧ (1 : Word) ≠ 0 ∧
    SourceIs (image []) (.reg 0) 0 := ⟨id, rfl, by decide, rfl⟩

theorem witness_Overflow :
    ValidWord (.literal 7) ∧ full.params.stackDepth = some full.stack.length ∧
    { image [] with params := { memFill := none, stackDepth := some 0 } }.params.stackDepth =
      some (image []).stack.length := ⟨trivial, rfl, rfl⟩

theorem witness_PopInChecks :
    (image []).stack = [] ∧ full.stack ≠ [] ∧ ¬ ValidWord (.invalid 32776) :=
  ⟨rfl, by decide, id⟩

/-- RMEM: each clause, at the addresses 32767 and 32768. -/
theorem witness_RmemChecks :
    ¬ ValidWord (.invalid 32776) ∧ SourceIs ((image []).setReg 1 32768) (.reg 1) 32768 ∧
    32768 ≤ (32768 : Word).toNat ∧ SourceIs (image []) (.literal 32767) 32767 ∧
    (32767 : Word).toNat < 32768 ∧ (image []).mem.read 32767 = none ∧
    (image []).params.memFill = none ∧ SourceIs (image [5]) (.literal 0) 0 ∧
    memRead (image [5]) [] 0 = .ok 5 :=
  ⟨id, rfl, by decide, rfl, by decide, rfl, rfl, rfl, rfl⟩

theorem witness_WmemChecks :
    ¬ ValidWord (.invalid 32776) ∧ SourceIs ((image []).setReg 1 32768) (.reg 1) 32768 ∧
    ValidWord (.literal 5) ∧ 32768 ≤ (32768 : Word).toNat := ⟨id, rfl, trivial, by decide⟩

theorem witness_HostMoves :
    (waiting [.supplyLine [104, 105]]).rs = .awaitingInput ∧
    (waiting [.supplyLine [104, 105]]).host = .supplyLine [104, 105] :: [] ∧
    (waiting [.debugAssist]).rs = .awaitingInput ∧
    (waiting [.debugAssist]).host = .debugAssist :: [] := ⟨rfl, rfl, rfl, rfl⟩

theorem witness_AnsweredInput :
    { image [20, 32768] with host := [.supplyLine []] }.rs = .running ∧
    fetch { image [20, 32768] with host := [.supplyLine []] } = .ok (.inp (.reg 0)) ∧
    ValidWord (.reg 0) ∧ { image [20, 32768] with host := [.supplyLine []] }.inq = [] ∧
    { image [20, 32768] with host := [.supplyLine []] }.host = .supplyLine [] :: [] :=
  ⟨rfl, rfl, trivial, rfl, rfl⟩

/-- `IN r0; HALT` with one line, given live and given before: both runs end. -/
theorem witness_Replay :
    (image [20, 32768, 0]).rs = .running ∧
    (∃ t, Sys2Proof.core.run 4
        { image [20, 32768, 0] with host := [[104]].map HostAction.supplyLine } = .next t ∧
      t.ended) ∧
    (∃ u, Sys2Proof.core.run 2
        { image [20, 32768, 0] with host := [], inq := [] ++ preseedOf [[104]] } = .next u ∧
      u.ended) ∧
    ∃ s, boot Config.defaultParams [20, 32768, 0] (preseedOf [[104]]) [] = .next s :=
  ⟨rfl, ⟨_, rfl, .inl rfl⟩, ⟨_, rfl, .inl rfl⟩, ⟨_, rfl⟩⟩

/-- V-R1: an RMEM that reads a value below 32768. -/
theorem witness_ValuesStay :
    (image [15, 32769, 3, 100]).rs = .running ∧ InV15 (image [15, 32769, 3, 100]) ∧
    (∃ t, step (image [15, 32769, 3, 100]) = .next t) ∧
    fetch (image [15, 32769, 3, 100]) = .ok (.rmem (.reg 1) (.literal 3)) ∧
    memRead (image [15, 32769, 3, 100]) [] 3 = .ok 100 ∧ (100 : Word).toNat < 32768 :=
  ⟨rfl, ⟨by decide, fun v h => by cases h⟩, ⟨_, rfl⟩, rfl, rfl, by decide⟩

/-- The other two entries: an IN that takes a code below 32768, a CALL that is not at 32766. -/
theorem witness_ValuesStay_entries :
    fetch { image [20, 32768] with inq := [104] } = .ok (.inp (.reg 0)) ∧
    { image [20, 32768] with inq := [104] }.inq = 104 :: [] ∧ (104 : Word).toNat < 32768 ∧
    fetch (image [17, 7]) = .ok (.call (.literal 7)) ∧ (image [17, 7]).pc.toNat ≠ 32766 :=
  ⟨rfl, rfl, by decide, rfl, by decide⟩

theorem witness_TraceInvisible : ∃ t, step { image [21] with traceEn := true } = .next t := ⟨_, rfl⟩

theorem witness_TraceRecords :
    { image [1, 32768, 3] with traceEn := true }.rs = .running ∧
    (∃ t, step { image [1, 32768, 3] with traceEn := true } = .next t) ∧
    fetch { image [1, 32768, 3] with traceEn := true } = .ok (.set (.reg 0) (.literal 3)) ∧
    SourceIs (image []) (.literal 3) 3 ∧ (∃ e, fetch (image []) = .error e) ∧
    (image []).traceEn = false := ⟨rfl, ⟨_, rfl⟩, rfl, rfl, ⟨_, rfl⟩, rfl⟩

theorem witness_CallThenRet :
    SourceIs (imageAt 32766 [17, 5]) (.literal 5) 5 ∧
    (imageAt 32766 [17, 5]).params.stackDepth ≠ some (imageAt 32766 [17, 5]).stack.length ∧
    (imageAt 32766 [17, 5]).pc.toNat ≤ 32766 := ⟨rfl, by decide, by decide⟩

theorem witness_LogicalLaws : (32767 : Word).toNat < 32768 ∧ (0 : Word).toNat < 32768 := by decide

end Sys2Proof.Tests
end

section
/-! SUPPORT. The vocabulary of the statements in terms of the model's own operations: `SourceIs` and
`ValidWord` as `resolve` and `destOf` see them, `Raised` and `TakesException` as `State.raise` builds
them. -/

namespace Sys2Proof.Machine

theorem sourceIs_iff_resolve {s : State} {o : Operand} {v : Word} :
    SourceIs s o v ↔ resolve s o = some v := by
  cases o with
  | literal n =>
    have hn : (n.setWidth 16).toNat = n.toNat := BitVec.toNat_setWidth_of_le (by decide)
    simp [SourceIs, resolve, ← BitVec.toNat_inj, hn, eq_comm]
  | reg r => simp [SourceIs, resolve, eq_comm]
  | invalid w => simp [SourceIs, resolve]

theorem validWord_iff_resolve (s : State) {o : Operand} :
    ValidWord o ↔ ∃ v, resolve s o = some v := by
  cases o <;> simp [ValidWord, resolve]

theorem validWord_iff_destOf {o : Operand} : ValidWord o ↔ ∃ d, destOf o = some d := by
  cases o <;> simp [ValidWord, destOf]

/-- Taking an exception is what `Raised` describes. -/
theorem raised_raise (s : State) (w : Option Word) (e : Raise) :
    Raised s (s.raise w e) { cause := e.cause, subCause := e.subCause, opcode := w, pc := s.pc,
                             operands := e.operands } where
  rs := rfl
  err := rfl
  regs := fun _ => rfl
  cells := fun _ => rfl
  pc := rfl
  queues := ⟨rfl, rfl, rfl⟩
  traceEn := rfl
  traceLog := rfl
  params := rfl
  host := rfl

theorem takesException_of_exec {i : Instr} {s : State} {e : Raise}
    (h : exec i s = .next (s.raise (some (opcodeWord i.op)) e)) :
    TakesException i s e.cause e.subCause e.operands :=
  ⟨_, h, raised_raise s _ e⟩

/-- An exception taken after the trace record was emitted changes nothing else of the state the
instruction was fetched in. -/
theorem raised_raise_traced (s : State) (i : Instr) (w : Option Word) (e : Raise) :
    Raised { s with traceLog := (s.traced i).traceLog } ((s.traced i).raise w e)
      { cause := e.cause, subCause := e.subCause, opcode := w, pc := s.pc,
        operands := e.operands } := by
  unfold State.traced; split <;> exact raised_raise _ w e

@[simp] theorem fetch_traced (s : State) (i : Instr) : fetch (s.traced i) = fetch s :=
  fetch_congr (by simp) (by simp) (by simp)

theorem nonZero_iff {v : Word} : nonZero v = true ↔ v ≠ 0 := by simp [nonZero]

theorem nonZero_eq_false_iff {v : Word} : nonZero v = false ↔ v = 0 := by simp [nonZero]

theorem stackRoom_of_full {s : State} (h : s.params.stackDepth = some s.stack.length) :
    stackRoom s = .error Raise.stackOverflow := if_pos h

end Sys2Proof.Machine
end

section
/-! SUPPORT. What an effect does to the stack, the queue and the output, said once per piece of
state. -/

namespace Sys2Proof.Machine

/-- An effect keeps the stack, or pushes one entry where there is room, or pops one entry
(10_state.md rules R27, R28). -/
theorem Effect.stack_cases {i : Instr} {s t : State} (h : Effect i s t) :
    t.stack = s.stack ∨
    ((i.op = .push ∨ i.op = .call) ∧ s.params.stackDepth ≠ some s.stack.length ∧
      ∃ v, t.stack = s.stack ++ [v]) ∨
    ((i.op = .pop ∨ i.op = .ret) ∧ ∃ v, s.stack = t.stack ++ [v]) := by
  cases h with
  | push ha room => exact .inr (.inl ⟨.inl rfl, room, _, rfl⟩)
  | call ha room => exact .inr (.inl ⟨.inr rfl, room, _, rfl⟩)
  | pop hs ha => exact .inr (.inr ⟨.inl rfl, _, by simpa using hs⟩)
  | retJump hs => exact .inr (.inr ⟨.inr rfl, _, hs⟩)
  | _ => exact .inl (by simp)

/-- An effect keeps the queue, or is that of an IN that takes the head (10_state.md rule R30). -/
theorem Effect.inq_cases {i : Instr} {s t : State} (h : Effect i s t) :
    t.inq = s.inq ∨ (i.op = .inp ∧ ∃ v, s.inq = v :: t.inq) := by
  cases h with
  | inpTake ha hq => exact .inr ⟨rfl, _, by simpa using hq⟩
  | _ => exact .inl (by simp)

/-- An effect keeps the output, or is that of an OUT that appends one code (49_io.md rule R212). -/
theorem Effect.outLog_cases {i : Instr} {s t : State} (h : Effect i s t) :
    t.outLog = s.outLog ∨ (i.op = .out ∧ ∃ v, t.outLog = s.outLog ++ [v]) := by
  cases h with
  | out ha => exact .inr ⟨rfl, _, rfl⟩
  | _ => exact .inl (by simp)

/-- No effect grows the stack past a finite `STACK_DEPTH` (10_state.md rule R28). -/
theorem Effect.stack_bound {i : Instr} {s t : State} (h : Effect i s t) {n : Nat}
    (hn : s.params.stackDepth = some n) (hle : s.stack.length ≤ n) : t.stack.length ≤ n := by
  obtain hk | ⟨-, room, v, hp⟩ | ⟨-, v, hp⟩ := h.stack_cases
  · rwa [hk]
  · have hne : n ≠ s.stack.length := fun he => room (he ▸ hn)
    simp only [hp, List.length_append, List.length_singleton]
    omega
  · simp only [hp, List.length_append, List.length_singleton] at hle
    omega

end Sys2Proof.Machine
end

section
/-! SUPPORT. The invariant: each thing that can happen to a state keeps it. -/

namespace Sys2Proof.Machine

theorem State.Inv.err_none {s : State} (h : s.Inv) (hr : s.rs ≠ .faulted) : s.err = none := by
  cases he : s.err with
  | none => rfl
  | some e => exact absurd (h.errPresent.1 (by simp [he])) hr

theorem State.Inv.raise {s : State} (h : s.Inv) (w : Option Word) (e : Raise) :
    (s.raise w e).Inv where
  memory := h.memory
  stack := h.stack
  errPresent := by simp
  errPc := by simp
  waitQueue := by simp
  waitPc := by simp

theorem State.Inv.traced {s : State} (h : s.Inv) (i : Instr) : (s.traced i).Inv where
  memory := by simpa using h.memory
  stack := by simpa using h.stack
  errPresent := by simpa using h.errPresent
  errPc := by simpa using h.errPc
  waitQueue := by simpa using h.waitQueue
  waitPc := by simpa using h.waitPc

/-- The effect of the fetched instruction keeps the invariant; it suspends only at the IN that pc
still addresses. -/
theorem State.Inv.effect {i : Instr} {s t : State} (h : s.Inv) (hr : s.rs = .running)
    (hf : fetch s = .ok i) (he : Effect i s t) : t.Inv := by
  obtain ⟨herr, -, -, hparams, -⟩ := he.frame
  have hnone : t.err = none := herr.trans (h.err_none (by simp [hr]))
  have hrs := he.rs_cases
  have hlive : t.rs ≠ .faulted := by
    obtain hk | ⟨hk, -⟩ | ⟨rfl, -⟩ := hrs
    · simp [hk, hr]
    · simp [hk]
    · simp
  have hsuspend : t.rs = .awaitingInput →
      t = s.setRs .awaitingInput ∧ s.inq = [] ∧ ∃ a d, i = .inp a ∧ destOf a = some d := by
    intro hw
    simpa [hw, hr] using hrs
  exact {
    memory := he.memory_wf h.memory
    stack := fun n hn => by
      rw [hparams] at hn
      exact he.stack_bound hn (h.stack n hn)
    errPresent := by simp [hnone, hlive]
    errPc := by simp [hnone]
    waitQueue := fun hw => by
      obtain ⟨rfl, hq, -⟩ := hsuspend hw
      exact hq
    waitPc := fun hw => by
      obtain ⟨rfl, -, a, d, rfl, ha⟩ := hsuspend hw
      exact ⟨a, d, (fetch_congr rfl rfl rfl).trans hf, ha⟩ }

/-- SupplyLine keeps the invariant: the engine no longer waits. -/
theorem State.Inv.supplyLine {s : State} (h : s.Inv) (hr : s.rs = .awaitingInput)
    (rest : List HostAction) (line : List Word) : ((s.setHost rest).supplyLine line).Inv where
  memory := h.memory
  stack := h.stack
  errPresent := by simp [h.err_none (by simp [hr])]
  errPc := h.errPc
  waitQueue := by simp
  waitPc := by simp

/-- DebugAssist keeps the invariant: it touches a register and TRACE_EN only. -/
theorem State.Inv.debugAssist {s : State} (h : s.Inv) (rest : List HostAction) :
    (s.setHost rest).debugAssist.Inv where
  memory := h.memory
  stack := h.stack
  errPresent := h.errPresent
  errPc := h.errPc
  waitQueue := h.waitQueue
  waitPc := h.waitPc

/-- Every step keeps the invariant. -/
theorem State.Inv.step {s t : State} (h : s.Inv) (hst : step s = .next t) : t.Inv := by
  obtain hr | ⟨hr, rest, ⟨line, -, rfl⟩ | ⟨-, rfl⟩⟩ := step_next_cases hst
  · obtain ⟨e, -, rfl⟩ | ⟨i, hf, hex⟩ := step_running_cases hr hst
    · exact h.raise _ e
    · obtain he | ⟨e, -, rfl⟩ := exec_cases hex
      · exact (h.traced i).effect (by simpa using hr) (by simpa using hf) he
      · exact (h.traced i).raise _ e
  · exact h.supplyLine hr rest line
  · exact h.debugAssist rest

end Sys2Proof.Machine
end

section
/-! SUPPORT. What reset with an image answers. -/

namespace Sys2Proof.Machine

/-- Reset answers a state exactly for an image that fits, and this state (10_state.md rule R41). -/
theorem boot_next_iff {p : Config.Params} {image preseed : List Word} {host : List HostAction}
    {s : State} :
    boot p image preseed host = .next s ↔ image.length ≤ Config.memWords ∧
      s = { State.reset with
        mem := imageMemory image, inq := preseed, params := p, host := host } := by
  unfold boot
  by_cases hle : image.length ≤ Config.memWords
  · simp only [if_neg (Nat.not_lt.2 hle), Host.Outcome.next.injEq, hle, true_and, eq_comm]
  · simp [if_pos (Nat.not_le.1 hle), hle]

theorem boot_refuses_long_image (p : Config.Params) {image : List Word} (preseed : List Word)
    (host : List HostAction) (h : Config.memWords < image.length) :
    boot p image preseed host = .refused .imageTooLong := if_pos h

theorem State.reg_reset (q : Fin 8) : State.reset.reg q = 0 := by
  simp [State.reg, State.reset]

end Sys2Proof.Machine
end

section
/-! CERTIFICATES. The statements of 10_state.md, settled. -/

namespace Sys2Proof.Machine

/-- Settles O10: a step raises, has the fetched instruction's effect, or is a host's move, and each of
them keeps the invariant. -/
theorem everyStepKeepsTheInvariant : Obligations.EveryStepKeepsTheInvariant :=
  fun _ _ hinv hstep => hinv.step hstep

/-- Settles O7. -/
theorem bootGivesTheResetState : Obligations.BootGivesTheResetState := by
  intro p image preseed host
  refine ⟨fun hle => ⟨_, boot_next_iff.2 ⟨hle, rfl⟩, ?_⟩, boot_refuses_long_image p preseed host⟩
  exact ⟨State.reg_reset, rfl, read_imageMemory image, rfl, rfl, rfl, rfl, rfl, rfl, rfl, rfl⟩

/-- Settles O9: the memory of an image that fits is canonical, and the other fields are at reset. -/
theorem bootMeetsTheInvariant : Obligations.BootMeetsTheInvariant := by
  intro p image preseed host s hboot
  obtain ⟨hle, rfl⟩ := boot_next_iff.1 hboot
  exact {
    memory := imageMemory_wf hle
    stack := fun n _ => Nat.zero_le n
    errPresent := by simp [State.reset]
    errPc := by simp [State.reset]
    waitQueue := by simp [State.reset]
    waitPc := by simp [State.reset] }

/-- Settles O8: it is O9 for the empty image. -/
theorem resetMeetsTheInvariant : Obligations.ResetMeetsTheInvariant :=
  bootMeetsTheInvariant Config.defaultParams [] [] [] _ rfl

/-- Settles O11: a step raises, has an effect, whose run state `Effect.rs_cases` gives, or is a host's
move; `s.traced i` differs from `s` in the trace only. -/
theorem runStateChangesOnlyAsListed : Obligations.RunStateChangesOnlyAsListed := by
  intro s t hst
  obtain hr | ⟨hr, rest, ⟨line, hh, rfl⟩ | ⟨hh, rfl⟩⟩ := step_next_cases hst
  · obtain ⟨e, -, rfl⟩ | ⟨i, hf, hex⟩ := step_running_cases hr hst
    · exact .inr (.inr (.inr (.inl ⟨hr, rfl, _, raised_raise s _ e⟩)))
    obtain he | ⟨e, -, rfl⟩ := exec_cases hex
    · obtain hk | ⟨hh, hcause⟩ | ⟨rfl, hq, a, d, rfl, ha⟩ := he.rs_cases
      · exact .inl ⟨hr, by simpa [hr] using hk⟩
      · refine .inr (.inl ⟨hr, hh, ?_⟩)
        obtain rfl | ⟨rfl, hs⟩ := hcause
        · exact .inl hf
        · exact .inr ⟨hf, by simpa using hs⟩
      · exact .inr (.inr (.inl ⟨hr, rfl, a, hf, validWord_iff_destOf.2 ⟨d, ha⟩, by simpa using hq⟩))
    · exact .inr (.inr (.inr (.inl ⟨hr, rfl, _, raised_raise_traced s i _ e⟩)))
  · exact .inr (.inr (.inr (.inr (.inl ⟨hr, rfl, line, rest, hh⟩))))
  · exact .inr (.inr (.inr (.inr (.inr ⟨hr, hr, rest, hh⟩))))

/-- Settles O24: an exception keeps all of these fields, and an effect does as `Effect.stack_cases`,
`Effect.inq_cases`, `Effect.outLog_cases` and `Effect.frame` say. -/
theorem onlyListedInstructionsTouchStackQueueAndOutput :
    Obligations.OnlyListedInstructionsTouchStackQueueAndOutput := by
  intro i s t hex
  obtain he | ⟨e, -, rfl⟩ := exec_cases hex
  · obtain ⟨-, hframe⟩ := he.frame
    refine ⟨?_, ?_, ?_, ?_, ?_, hframe⟩
    · intro hpush hpop hcall hret
      simpa [hpush, hpop, hcall, hret] using he.stack_cases
    · intro hinp
      simpa [hinp] using he.inq_cases
    · intro hout
      simpa [hout] using he.outLog_cases
    · exact he.outLog_cases.imp_right And.right
    · exact he.inq_cases.imp_right And.right
  · simp

/-- Settles O25: each effect has its place in the list, and an exception keeps pc. -/
theorem programCounterChangesOnlyAsListed : Obligations.ProgramCounterChangesOnlyAsListed := by
  intro i s t hex
  obtain he | ⟨e, -, rfl⟩ := exec_cases hex
  · simp only [sourceIs_iff_resolve]
    cases he with
    | halt => exact .inr (.inl ⟨.inl rfl, rfl⟩)
    | retHalt hs => exact .inr (.inl ⟨.inr (.inl ⟨rfl, hs⟩), rfl⟩)
    | inpWait ha hq => exact .inr (.inl ⟨.inr (.inr ⟨rfl, hq⟩), rfl⟩)
    | jmp ha => exact .inr (.inr (.inl ⟨_, .inl rfl, ha⟩))
    | call ha room => exact .inr (.inr (.inl ⟨_, .inr rfl, ha⟩))
    | retJump hs => exact .inr (.inr (.inr (.inl ⟨_, rfl, hs⟩)))
    | jtTaken ha hv hb =>
      exact .inr (.inr (.inr (.inr (.inl ⟨_, _, _, rfl, ha, nonZero_iff.1 hv, hb⟩))))
    | jfTaken ha hv hb =>
      exact .inr (.inr (.inr (.inr (.inr (.inl ⟨_, _, _, rfl, ha, nonZero_eq_false_iff.1 hv, hb⟩)))))
    | jtUntaken ha hv =>
      exact .inr (.inr (.inr (.inr (.inr (.inr
        (.inl ⟨_, _, _, rfl, ha, nonZero_eq_false_iff.1 hv, rfl⟩))))))
    | jfUntaken ha hv =>
      exact .inr (.inr (.inr (.inr (.inr (.inr (.inr
        (.inl ⟨_, _, _, rfl, ha, nonZero_iff.1 hv, rfl⟩)))))))
    | _ =>
      refine .inr (.inr (.inr (.inr (.inr (.inr (.inr (.inr ?_)))))))
      simp [Instr.op]
  · exact .inl ⟨rfl, rfl⟩

/-- Settles O49: the operand resolves, and the room test that follows it fails. -/
theorem pushAndCallOnAFullStackOverflow : Obligations.PushAndCallOnAFullStackOverflow := by
  intro s a hvalid hfull
  obtain ⟨v, hv⟩ := (validWord_iff_resolve s).1 hvalid
  have hpush : exec (.push a) s = .next (s.raise (some (opcodeWord .push)) Raise.stackOverflow) := by
    simp [exec, execPush, rd_of_resolve _ hv, stackRoom_of_full hfull]
  have hcall : exec (.call a) s = .next (s.raise (some (opcodeWord .call)) Raise.stackOverflow) := by
    simp [exec, execCall, rd_of_resolve _ hv, stackRoom_of_full hfull]
  exact ⟨takesException_of_exec hpush, takesException_of_exec hcall⟩

end Sys2Proof.Machine
end

section
/-! SUPPORT. The program image as bytes: what `wordsOfBytes` answers (20_memory.md rules R54, R55). -/

namespace Sys2Proof

/-- The byte at the lower offset is the low-order one (20_memory.md rule R54). -/
theorem wordOfBytes_toNat (lo hi : Byte) :
    (wordOfBytes lo hi).toNat = hi.toNat * 256 + lo.toNat := by
  rw [wordOfBytes, BitVec.toNat_append, ← Nat.shiftLeft_add_eq_or_of_lt lo.isLt, Nat.shiftLeft_eq]

theorem length_wordsOfBytes : ∀ bs : List Byte, (wordsOfBytes bs).length = bs.length / 2
  | [] => rfl
  | [_] => by simp [wordsOfBytes]
  | _ :: _ :: rest => by
    simp only [wordsOfBytes, List.length_cons, length_wordsOfBytes rest]
    omega

/-- Word `i` is made of the bytes at the offsets `2 * i` and `2 * i + 1` (20_memory.md rule R55). -/
theorem getElem?_wordsOfBytes {lo hi : Byte} : ∀ {bs : List Byte} {i : Nat},
    bs[2 * i]? = some lo → bs[2 * i + 1]? = some hi →
      (wordsOfBytes bs)[i]? = some (wordOfBytes lo hi)
  | [], _, hlo, _ => by simp at hlo
  | [_], _, _, hhi => by simp at hhi
  | _ :: _ :: _, 0, hlo, hhi => by simp_all [wordsOfBytes]
  | _ :: _ :: rest, _ + 1, hlo, hhi => getElem?_wordsOfBytes (bs := rest) hlo hhi

/-- A last byte at an even offset contributes to no word (20_memory.md rule R55). -/
theorem wordsOfBytes_append_singleton (b : Byte) : ∀ {bs : List Byte}, bs.length % 2 = 0 →
    wordsOfBytes (bs ++ [b]) = wordsOfBytes bs
  | [], _ => rfl
  | [_], heven => by simp at heven
  | lo :: hi :: rest, heven => by
    have hrest : rest.length % 2 = 0 := by
      simp only [List.length_cons] at heven
      omega
    simp [wordsOfBytes, wordsOfBytes_append_singleton b hrest]

end Sys2Proof
end

section
/-! SUPPORT. What `MemRead` and `MemWrite` answer, a case each (20_memory.md rules R52, R53). -/

namespace Sys2Proof.Machine

theorem memRead_of_memWords_le (s : State) (src : List ErrEntry) {a : Nat}
    (ha : Config.memWords ≤ a) : memRead s src a = .error (Raise.addressFault a src) := if_pos ha

theorem memRead_of_fill {s : State} {a : Nat} {v : Word} (src : List ErrEntry)
    (ha : a < Config.memWords) (hr : s.mem.read a = none) (hf : s.params.memFill = some v) :
    memRead s src a = .ok v := by
  simp [memRead, Nat.not_le.2 ha, hr, hf]

theorem memRead_of_unwritten {s : State} {a : Nat} (src : List ErrEntry)
    (ha : a < Config.memWords) (hr : s.mem.read a = none) (hf : s.params.memFill = none) :
    memRead s src a = .error (Raise.unwrittenRead a) := by
  simp [memRead, Nat.not_le.2 ha, hr, hf]

theorem memWrite_of_memWords_le (s : State) (src : List ErrEntry) {a : Nat} (v : Word)
    (ha : Config.memWords ≤ a) : memWrite s src a v = .error (Raise.addressFault a src) := if_pos ha

theorem memRead_storeCell (s : State) (src : List ErrEntry) {a : Nat} (v : Word)
    (ha : a < Config.memWords) : memRead (s.storeCell a v) src a = .ok v :=
  memRead_of_read src ha (by simp)

end Sys2Proof.Machine
end

section
/-! SUPPORT. Which cell an effect changes (20_memory.md rule R69). -/

namespace Sys2Proof.Machine

theorem destOf_eq_cell {o : Operand} {c : Lit} : destOf o = some (.cell c) ↔ o = .literal c := by
  cases o <;> simp [destOf]

@[simp] theorem State.wr_setStack_mem (s : State) (l : List Word) (d : Dest) (v : Word) :
    ((s.setStack l).wr d v).mem = (s.wr d v).mem := by
  cases d <;> rfl

@[simp] theorem State.wr_setInq_mem (s : State) (q : List Word) (d : Dest) (v : Word) :
    ((s.setInq q).wr d v).mem = (s.wr d v).mem := by
  cases d <;> rfl

/-- A cell that `wr` changed is the one its place names. -/
theorem State.cell_of_wr_changes {s : State} {d : Dest} {v : Word} {n : Nat}
    (h : (s.wr d v).mem.read n ≠ s.mem.read n) : ∃ c, d = .cell c ∧ n = c.toNat := by
  cases d with
  | reg r => exact absurd rfl h
  | cell c => exact ⟨c, rfl, by_contra fun hn => h (Memory.read_write_other s.mem v hn)⟩

/-- An effect keeps the memory, or writes the place the destination word names, or is WMEM's write. -/
theorem Effect.mem_cases {i : Instr} {s t : State} (h : Effect i s t) :
    t.mem = s.mem ∨
    (∃ a d v, destWord i = some a ∧ destOf a = some d ∧ t.mem = (s.wr d v).mem) ∨
    (∃ a b addr v, i = .wmem a b ∧ resolve s a = some addr ∧
      t.mem = s.mem.write addr.toNat v) := by
  cases h with
  | set hb ha | not hb ha | rmem hb hm ha | eq hb hc ha | gt hb hc ha | add hb hc ha
  | mult hb hc ha | mod hb hc hz ha | and hb hc ha | or hb hc ha =>
    exact .inr (.inl ⟨_, _, _, rfl, ha, rfl⟩)
  | pop hs ha => exact .inr (.inl ⟨_, _, _, rfl, ha, State.wr_setStack_mem s _ _ _⟩)
  | inpTake ha hq => exact .inr (.inl ⟨_, _, _, rfl, ha, State.wr_setInq_mem s _ _ _⟩)
  | wmem ha hb hlt => exact .inr (.inr ⟨_, _, _, _, rfl, ha, rfl⟩)
  | _ => exact .inl rfl

end Sys2Proof.Machine
end

section
/-! SUPPORT. Noninterference of memory: two states that differ in memory at most pass the same checks
of an instruction, and end in states that differ in memory at most. -/

namespace Sys2Proof.Machine

/-- `t` is `s` but for its memory. -/
def SameButMemory (s t : State) : Prop := { t with mem := s.mem } = s

/-- The two runs of checks raise the same exception, or answer states that differ in memory at
most. -/
inductive ChecksAgree : Check State → Check State → Prop where
  | ok {t u : State} (h : SameButMemory t u) : ChecksAgree (.ok t) (.ok u)
  | error (e : Raise) : ChecksAgree (.error e) (.error e)

/-- The two instructions answer next states that differ in memory at most. -/
def ResultsAgree (r r' : Result) : Prop :=
  ∃ t u, r = .next t ∧ r' = .next u ∧ SameButMemory t u

/-- A check that both runs make is passed by both or failed by both. -/
theorem ChecksAgree.bind {α : Type} (x : Check α) {f g : α → Check State}
    (h : ∀ a, ChecksAgree (f a) (g a)) : ChecksAgree (x >>= f) (x >>= g) := by
  cases x with
  | ok a => exact h a
  | error e => exact .error e

theorem ResultsAgree.complete {r r' : Check State} (h : ChecksAgree r r') (o : Op) (s : State)
    (m : Memory) : ResultsAgree (complete o s r) (complete o { s with mem := m } r') := by
  cases h with
  | ok h => exact ⟨_, _, rfl, rfl, h⟩
  | error e => exact ⟨_, _, rfl, rfl, rfl⟩

section
variable (s : State) (m : Memory)

theorem rd_withMem (p : Pos) (o : Operand) : rd { s with mem := m } p o = rd s p o := by
  cases o <;> rfl

theorem stackRoom_withMem : stackRoom { s with mem := m } = stackRoom s := rfl

theorem pop?_withMem : State.pop? { s with mem := m } =
    s.pop?.map fun (v, t) => (v, { t with mem := m }) := by
  simp only [State.pop?]
  cases s.stack.getLast? <;> rfl

theorem deq?_withMem : State.deq? { s with mem := m } =
    s.deq?.map fun (v, t) => (v, { t with mem := m }) := by
  simp only [State.deq?]
  cases s.inq <;> rfl

/-- The place written is the same, whatever the memory was. -/
theorem sameButMemory_wr_advance (d : Dest) (v : Word) (o : Op) :
    SameButMemory ((s.wr d v).advance o) ((State.wr { s with mem := m } d v).advance o) := by
  cases d <;> rfl

theorem unaryResult_agree (o : Op) (f : Word → Word) (a b : Operand) :
    ResultsAgree (unaryResult o f a b s) (unaryResult o f a b { s with mem := m }) := by
  simp only [unaryResult, rd_withMem]
  exact .complete (.bind _ fun _ => .bind _ fun d => .ok (sameButMemory_wr_advance s m d _ o)) o s m

theorem binaryResult_agree (o : Op) (f : Word → Word → Word) (a b c : Operand) :
    ResultsAgree (binaryResult o f a b c s) (binaryResult o f a b c { s with mem := m }) := by
  simp only [binaryResult, rd_withMem]
  exact .complete (.bind _ fun _ => .bind _ fun _ => .bind _ fun d =>
    .ok (sameButMemory_wr_advance s m d _ o)) o s m

theorem conditionalJump_agree (o : Op) (taken : Word → Bool) (a b : Operand) :
    ResultsAgree (conditionalJump o taken a b s)
      (conditionalJump o taken a b { s with mem := m }) := by
  simp only [conditionalJump, rd_withMem]
  refine .complete (.bind _ fun va => ?_) o s m
  split
  · exact .bind _ fun _ => .ok rfl
  · exact .ok rfl

theorem execMod_agree (a b c : Operand) :
    ResultsAgree (execMod a b c s) (execMod a b c { s with mem := m }) := by
  simp only [execMod, rd_withMem]
  refine .complete (.bind _ fun _ => .bind _ fun vc => ?_) .mod s m
  split
  · exact .error _
  · exact .bind _ fun d => .ok (sameButMemory_wr_advance s m d _ .mod)

theorem execPush_agree (a : Operand) :
    ResultsAgree (execPush a s) (execPush a { s with mem := m }) := by
  simp only [execPush, rd_withMem, stackRoom_withMem]
  refine .complete (.bind _ fun _ => .bind _ fun _ => .ok ?_) .push s m
  exact rfl

theorem execCall_agree (a : Operand) :
    ResultsAgree (execCall a s) (execCall a { s with mem := m }) := by
  simp only [execCall, rd_withMem, stackRoom_withMem]
  refine .complete (.bind _ fun _ => .bind _ fun _ => .ok ?_) .call s m
  exact rfl

theorem execJmp_agree (a : Operand) :
    ResultsAgree (execJmp a s) (execJmp a { s with mem := m }) := by
  simp only [execJmp, rd_withMem]
  refine .complete (.bind _ fun _ => .ok ?_) .jmp s m
  exact rfl

theorem execOut_agree (a : Operand) :
    ResultsAgree (execOut a s) (execOut a { s with mem := m }) := by
  simp only [execOut, rd_withMem]
  refine .complete (.bind _ fun _ => .ok ?_) .out s m
  exact rfl

theorem execPop_agree (a : Operand) :
    ResultsAgree (execPop a s) (execPop a { s with mem := m }) := by
  simp only [execPop, pop?_withMem]
  refine .complete ?_ .pop s m
  cases s.pop? with
  | none => exact .error _
  | some r => exact .bind _ fun d => .ok (sameButMemory_wr_advance r.2 m d r.1 .pop)

theorem execInp_agree (a : Operand) :
    ResultsAgree (execInp a s) (execInp a { s with mem := m }) := by
  simp only [execInp, deq?_withMem]
  refine .complete (.bind _ fun d => ?_) .inp s m
  cases s.deq? with
  | none => exact .ok rfl
  | some r => exact .ok (sameButMemory_wr_advance r.2 m d r.1 .inp)

theorem execRet_agree : ResultsAgree (execRet s) (execRet { s with mem := m }) := by
  simp only [execRet, pop?_withMem]
  cases s.pop? with
  | none => exact ⟨_, _, rfl, rfl, rfl⟩
  | some r => exact ⟨_, _, rfl, rfl, rfl⟩

theorem execWmem_agree (a b : Operand) :
    ResultsAgree (execWmem a b s) (execWmem a b { s with mem := m }) := by
  simp only [execWmem, rd_withMem]
  refine .complete (.bind _ fun addr => .bind _ fun v => ?_) .wmem s m
  unfold memWrite
  split
  · exact .error _
  · exact .ok rfl

/-- No instruction but RMEM depends on memory (20_memory.md rule R69). -/
theorem exec_agree {i : Instr} (hi : i.op ≠ .rmem) :
    ResultsAgree (exec i s) (exec i { s with mem := m }) := by
  cases i with
  | rmem a b => exact absurd rfl hi
  | halt | noop => exact ⟨_, _, rfl, rfl, rfl⟩
  | set a b | not a b => exact unaryResult_agree s m _ _ a b
  | eq a b c | gt a b c | add a b c | mult a b c | and a b c | or a b c =>
    exact binaryResult_agree s m _ _ a b c
  | jt a b | jf a b => exact conditionalJump_agree s m _ _ a b
  | mod a b c => exact execMod_agree s m a b c
  | push a => exact execPush_agree s m a
  | pop a => exact execPop_agree s m a
  | jmp a => exact execJmp_agree s m a
  | call a => exact execCall_agree s m a
  | ret => exact execRet_agree s m
  | out a => exact execOut_agree s m a
  | inp a => exact execInp_agree s m a
  | wmem a b => exact execWmem_agree s m a b

end

end Sys2Proof.Machine
end

section
/-! CERTIFICATES. The statements of 20_memory.md, settled. -/

namespace Sys2Proof.Machine

/-- Settles O6: each clause is a law of `wordsOfBytes`, and reset loads the words as an image. -/
theorem imageLoadIsLittleEndianAndDropsAnOddByte :
    Obligations.ImageLoadIsLittleEndianAndDropsAnOddByte := by
  intro bs
  refine ⟨length_wordsOfBytes bs, ?_, ?_, fun b => wordsOfBytes_append_singleton b⟩
  · intro i lo hi hlo hhi
    exact ⟨_, getElem?_wordsOfBytes hlo hhi, wordOfBytes_toNat lo hi⟩
  · intro hle p preseed host
    have hfits : (wordsOfBytes bs).length ≤ Config.memWords := (length_wordsOfBytes bs).trans_le hle
    exact ⟨_, boot_next_iff.2 ⟨hfits, rfl⟩, read_imageMemory _⟩

/-- Settles O20: a write below 32768 answers `s.storeCell addr v`. -/
theorem memoryReadsAndWritesBehave : Obligations.MemoryReadsAndWritesBehave := by
  intro s src addr
  refine ⟨memRead_of_memWords_le s src, fun hlt _ => memRead_of_read src hlt,
    fun hlt hr _ => memRead_of_fill src hlt hr, memRead_of_unwritten src,
    memWrite_of_memWords_le s src, fun v hlt => ?_⟩
  exact ⟨s.storeCell addr v, memWrite_ok.2 ⟨hlt, rfl⟩, memRead_storeCell s src v hlt,
    fun n hn => Memory.read_write_other s.mem v hn, rfl⟩

/-- Settles O23: an exception keeps the memory and `Effect.mem_cases` says what an effect writes; the
second part is `exec_agree`. -/
theorem onlyListedInstructionsReachMemory : Obligations.OnlyListedInstructionsReachMemory := by
  refine ⟨fun i s t n hex hne => ?_, fun i s t m hi hex => ?_⟩
  · obtain he | ⟨e, -, rfl⟩ := exec_cases hex
    · obtain hm | ⟨a, d, v, ha, hd, hm⟩ | ⟨a, b, addr, v, rfl, ha, hm⟩ := he.mem_cases
      · exact absurd (congrArg (Memory.read · n) hm) hne
      · obtain ⟨c, rfl, hn⟩ := State.cell_of_wr_changes (hm ▸ hne)
        exact .inl ⟨c, destOf_eq_cell.1 hd ▸ ha, hn⟩
      · refine .inr ⟨a, b, addr, rfl, sourceIs_iff_resolve.2 ha, by_contra fun hn => hne ?_⟩
        rw [hm, Memory.read_write_other s.mem v hn]
    · exact absurd rfl hne
  · obtain ⟨t', u, ht, hu, hsame⟩ := exec_agree s m hi
    obtain rfl : t' = t := by simpa [ht] using hex
    exact ⟨u, hu, hsame⟩

end Sys2Proof.Machine
end

section
/-! SUPPORT. The decoder and the encoder are inverse: `decodeFrom` answers an instruction exactly
when the words it is given are the instruction's, so `decode` answers exactly at its encoding
(30_encoding.md rules R80 to R90). -/

namespace Sys2Proof

/-! ### Lengths -/

theorem opLength_op (i : Instr) : opLength i.op = 1 + i.operands.length := by
  cases i <;> rfl

@[simp] theorem length_encode (i : Instr) : (encode i).length = opLength i.op := by
  simp [encode, opLength_op, Nat.add_comm]

/-! ### From the words to the instruction -/

section
variable {ε : Type} {word : Nat → Except ε Word}

/-- Word `k` is there and its class is that of the operand `o` (30_encoding.md rule R84). -/
def ReadsAs (word : Nat → Except ε Word) (k : Nat) (o : Operand) : Prop :=
  ∃ w, word k = .ok w ∧ decodeOperand w = o

theorem readOne_of_readsAs {a : Operand} (mk : Operand → Instr) (ha : ReadsAs word 1 a) :
    readOne word mk = .ok (mk a) := by
  obtain ⟨wa, hwa, rfl⟩ := ha
  simp [readOne, hwa]

theorem readTwo_of_readsAs {a b : Operand} (mk : Operand → Operand → Instr)
    (ha : ReadsAs word 1 a) (hb : ReadsAs word 2 b) : readTwo word mk = .ok (mk a b) := by
  obtain ⟨wa, hwa, rfl⟩ := ha
  obtain ⟨wb, hwb, rfl⟩ := hb
  simp [readTwo, hwa, hwb]

theorem readThree_of_readsAs {a b c : Operand} (mk : Operand → Operand → Operand → Instr)
    (ha : ReadsAs word 1 a) (hb : ReadsAs word 2 b) (hc : ReadsAs word 3 c) :
    readThree word mk = .ok (mk a b c) := by
  obtain ⟨wa, hwa, rfl⟩ := ha
  obtain ⟨wb, hwb, rfl⟩ := hb
  obtain ⟨wc, hwc, rfl⟩ := hc
  simp [readThree, hwa, hwb, hwc]

/-- Each opcode reads its operands in the format the instruction has (30_encoding.md rule R81). -/
theorem readOperands_of_readsAs {i : Instr}
    (h : ∀ (k : Nat) (o : Operand), i.operands[k]? = some o → ReadsAs word (k + 1) o) :
    readOperands word i.op = .ok i := by
  cases i with
  | halt | ret | noop => rfl
  | push a | pop a | jmp a | call a | out a | inp a => exact readOne_of_readsAs _ (h 0 a rfl)
  | set a b | jt a b | jf a b | not a b | rmem a b | wmem a b =>
    exact readTwo_of_readsAs _ (h 0 a rfl) (h 1 b rfl)
  | eq a b c | gt a b c | add a b c | mult a b c | mod a b c | and a b c | or a b c =>
    exact readThree_of_readsAs _ (h 0 a rfl) (h 1 b rfl) (h 2 c rfl)

/-- The operand words of a well-formed instruction read as its operands. -/
theorem readsAs_of_words {i : Instr} (hwf : i.wf = true)
    (h : ∀ (k : Nat) (hk : k < (encode i).length), word k = .ok (encode i)[k])
    (k : Nat) (o : Operand) (ho : i.operands[k]? = some o) : ReadsAs word (k + 1) o := by
  have ho_wf : o.wf = true := List.all_eq_true.1 hwf o (List.mem_of_getElem? ho)
  obtain ⟨hk, rfl⟩ := List.getElem?_eq_some_iff.1 ho
  have hword := h (k + 1) (by simpa [encode] using hk)
  exact ⟨_, by simpa [encode] using hword, decodeOperand_encodeOperand ho_wf⟩

/-- The converse of `decodeFrom_words` and `decodeFrom_wf`. -/
theorem decodeFrom_of_words {i : Instr} (unknown : Word → ε) (hwf : i.wf = true)
    (h : ∀ (k : Nat) (hk : k < (encode i).length), word k = .ok (encode i)[k]) :
    decodeFrom word unknown = .ok i := by
  have hopcode : word 0 = .ok (opcodeWord i.op) := h 0 (by simp [encode])
  have hoperands : readOperands word i.op = .ok i :=
    readOperands_of_readsAs (readsAs_of_words hwf h)
  simp [decodeFrom, hopcode, hoperands]

end

/-! ### Word sequences -/

theorem wordAt_eq_ok_iff {ws : List Word} {k : Nat} {w : Word} :
    wordAt ws k = .ok w ↔ ws[k]? = some w := by
  unfold wordAt
  split <;> simp_all

/-- The decoder reads an instruction exactly where the sequence begins with its words. -/
theorem decodeFrom_wordAt_eq_ok_iff {ws : List Word} {unknown : Word → DecodeError} {i : Instr} :
    decodeFrom (wordAt ws) unknown = .ok i ↔ i.wf = true ∧ encode i <+: ws := by
  simp only [List.prefix_iff_getElem?, ← wordAt_eq_ok_iff]
  exact ⟨fun h => ⟨decodeFrom_wf h, decodeFrom_words h⟩,
    fun ⟨hwf, h⟩ => decodeFrom_of_words unknown hwf h⟩

/-- `decode` answers exactly on the encodings of well-formed instructions, and there the instruction
and the words that follow. -/
theorem decode_eq_ok_iff {ws : List Word} {i : Instr} {rest : List Word} :
    decode ws = .ok (i, rest) ↔ i.wf = true ∧ encode i ++ rest = ws := by
  constructor
  · intro h
    unfold decode at h
    split at h
    · cases h
      rename_i hfrom
      obtain ⟨hwf, hstart⟩ := decodeFrom_wordAt_eq_ok_iff.1 hfrom
      rw [← length_encode]
      exact ⟨hwf, List.prefix_iff_eq_append.1 hstart⟩
    · cases h
  · rintro ⟨hwf, rfl⟩
    have hfrom : decodeFrom (wordAt (encode i ++ rest)) DecodeError.unknownOpcode = .ok i :=
      decodeFrom_wordAt_eq_ok_iff.2 ⟨hwf, List.prefix_append _ _⟩
    simp [decode, hfrom, ← length_encode]

/-! ### Bytes -/

/-- Loading the bytes of a word sequence gives it back (30_encoding.md rule R94). -/
theorem wordsOfBytes_bytesOfWords (ws : List Word) : wordsOfBytes (bytesOfWords ws) = ws := by
  induction ws with
  | nil => rfl
  | cons w ws ih => simp [bytesOfWords, wordsOfBytes, wordOfBytes_bytes, ih]

end Sys2Proof
end

section
/-! SUPPORT. Exceptions of fetch and decode, and which of them is UnknownOpcode (60_exceptions.md
rule R243). -/

namespace Sys2Proof.Machine

/-- A Running core whose fetch fails takes that exception. -/
theorem step_of_fetch_error {s : State} {e : Raise} (hr : s.rs = .running)
    (h : fetch s = .error e) : step s = .next (s.raise (fetchedOpcode s) e) := by
  simp [step, hr, cycle, h]

theorem fetchedOpcode_of_fetchWord {s : State} {w : Word} (h : fetchWord s 0 = .ok w) :
    fetchedOpcode s = some w := by
  simp [fetchedOpcode, h, Except.toOption]

/-- An undefined opcode word is refused before any operand word is read. -/
theorem fetch_of_unknownOpcode {s : State} {w : Word} (hw : fetchWord s 0 = .ok w)
    (hge : 22 ≤ w.toNat) : fetch s = .error Raise.unknownOpcode := by
  simp [fetch, decodeFrom, hw, opOfWord_none_iff.2 hge]

/-- A failing memory read raises AddressFault or UnwrittenRead, so never UnknownOpcode. -/
theorem memRead_error_cause_ne_unknownOpcode {s : State} {src : List ErrEntry} {a : Nat} {e : Raise}
    (h : memRead s src a = .error e) : e.cause ≠ .unknownOpcode := by
  obtain ⟨-, rfl⟩ | ⟨-, -, -, rfl⟩ := memRead_error h <;> exact Cause.noConfusion

/-- No instruction raises UnknownOpcode when it executes. -/
theorem Raises.cause_ne_unknownOpcode {i : Instr} {s : State} {e : Raise} (h : Raises i s e) :
    e.cause ≠ .unknownOpcode := by
  cases h <;> exact Cause.noConfusion

/-- Fetch fails with UnknownOpcode only on an undefined opcode word. -/
theorem fetchWord_of_fetch_unknownOpcode {s : State} {e : Raise} (h : fetch s = .error e)
    (hc : e.cause = .unknownOpcode) : ∃ w, fetchWord s 0 = .ok w ∧ 22 ≤ w.toNat := by
  obtain ⟨k, hk⟩ | ⟨w, hw, hnone, -⟩ := decodeFrom_error h
  · exact absurd hc (memRead_error_cause_ne_unknownOpcode hk)
  · exact ⟨w, hw, opOfWord_none_iff.1 hnone⟩

end Sys2Proof.Machine
end

section
/-! CERTIFICATES. The statements of 30_encoding.md, settled. -/

namespace Sys2Proof.Machine

/-- Settles O2: one direction of `decode_eq_ok_iff`. -/
theorem decodeOfEncodeGivesTheInstruction : Obligations.DecodeOfEncodeGivesTheInstruction :=
  fun _ _ hwf => decode_eq_ok_iff.2 ⟨hwf, rfl⟩

/-- Settles O3: the other direction of `decode_eq_ok_iff`. -/
theorem encodeOfDecodeGivesTheWords : Obligations.EncodeOfDecodeGivesTheWords :=
  fun _ _ _ => decode_eq_ok_iff.1

/-- Settles O4: the table is evaluated row by row; the words read are those of the encoding, and JMP
has its one effect or raises. -/
theorem instructionLengthsAreTheTable : Obligations.InstructionLengthsAreTheTable := by
  refine ⟨by decide, ⟨rfl, by decide, fun o => ?_⟩, opLength_op, fun ws i rest h => ?_,
    fun s t a hex => ?_⟩
  · cases o <;> decide
  · obtain ⟨-, rfl⟩ := decode_eq_ok_iff.1 h
    simp
  · obtain he | ⟨e, -, rfl⟩ := exec_cases hex
    · cases he with
      | jmp ha => exact .inl (sourceIs_iff_resolve.2 ha)
    · exact .inr ⟨rfl, rfl⟩

/-- Settles O5: the bytes give the words back, and reset loads the words as an image. -/
theorem imageBytesRoundTrip : Obligations.ImageBytesRoundTrip := by
  intro ws
  refine ⟨wordsOfBytes_bytesOfWords ws, fun hle p preseed host => ?_⟩
  rw [bootBytes, wordsOfBytes_bytesOfWords]
  exact ⟨_, boot_next_iff.2 ⟨hle, rfl⟩, read_imageMemory ws⟩

/-- Settles O16: fetch refuses such a word, and of all that a step can raise only that refusal is
UnknownOpcode; an effect keeps ERR, so it reports nothing new. -/
theorem unknownOpcodeIsRaisedExactlyOnAnUndefinedOpcodeWord :
    Obligations.UnknownOpcodeIsRaisedExactlyOnAnUndefinedOpcodeWord := by
  intro s hr
  refine ⟨fun w hw hge => ?_, fun t e hnone hst herr hcause => ?_⟩
  · have hst := step_of_fetch_error hr (fetch_of_unknownOpcode hw hge)
    rw [fetchedOpcode_of_fetchWord hw] at hst
    exact ⟨_, hst, raised_raise s (some w) Raise.unknownOpcode⟩
  · obtain ⟨r, hf, rfl⟩ | ⟨i, -, hex⟩ := step_running_cases hr hst
    · cases herr
      obtain ⟨w, hw, hge⟩ := fetchWord_of_fetch_unknownOpcode hf hcause
      exact ⟨w, hw, hge, fetchedOpcode_of_fetchWord hw, rfl⟩
    · obtain he | ⟨r, hraises, rfl⟩ := exec_cases hex
      · obtain ⟨hkeep, -⟩ := he.frame
        simp [hkeep, hnone] at herr
      · cases herr
        exact absurd hcause hraises.cause_ne_unknownOpcode

/-- Settles O1: the decoder is evaluated on each sequence. -/
theorem sampleWordsDecodeAsTheirInstructions : Obligations.SampleWordsDecodeAsTheirInstructions :=
  ⟨rfl, rfl, rfl, rfl, rfl, rfl, rfl, rfl, rfl, rfl, rfl, rfl⟩

end Sys2Proof.Machine
end

section
/-! SUPPORT. The class of an operand word, read off its value (30_encoding.md rule R84), and what `rd`
and `destok` answer on each class (40_cycle_and_operands.md rules R107, R108). -/

namespace Sys2Proof

theorem decodeOperand_of_lt {w : Word} (h : w.toNat < Config.regBase) :
    decodeOperand w = .literal (w.setWidth 15) := if_pos h

/-- The word `32768 + r` names register `r`. -/
theorem decodeOperand_of_reg {w : Word} {r : Fin 8} (h : w.toNat = Config.regBase + r.val) :
    decodeOperand w = .reg r := by
  have hw : w = encodeOperand (.reg r) := by simp [encodeOperand, ← h]
  rw [hw, decodeOperand_reg]

theorem decodeOperand_of_invalidBase_le {w : Word} (h : Config.invalidBase ≤ w.toNat) :
    decodeOperand w = .invalid w := by
  have hreg : ¬ w.toNat < Config.regBase := by
    simp only [Config.regBase, Config.invalidBase] at *
    omega
  rw [decodeOperand, if_neg hreg, if_neg (Nat.not_lt.2 h)]

theorem toNat_setWidth_of_lt_regBase {w : Word} (h : w.toNat < Config.regBase) :
    (w.setWidth 15).toNat = w.toNat := by
  rw [BitVec.toNat_setWidth, Nat.mod_eq_of_lt h]

namespace Machine

/-- A literal operand word is its own value. -/
theorem rd_decodeOperand_of_lt (s : State) (p : Pos) {w : Word} (h : w.toNat < Config.regBase) :
    rd s p (decodeOperand w) = .ok w := by
  have hw := encodeOperand_decodeOperand w
  rw [decodeOperand_of_lt h] at hw ⊢
  exact congrArg Except.ok hw

theorem rd_of_not_validWord (s : State) (p : Pos) {o : Operand} (h : ¬ ValidWord o) :
    rd s p o = .error (Raise.invalidOperand p o) := by
  cases o with
  | invalid w => rfl
  | literal v | reg r => exact absurd trivial h

theorem destok_of_not_validWord (p : Pos) {o : Operand} (h : ¬ ValidWord o) :
    destok p o = .error (Raise.invalidOperand p o) := by
  cases o with
  | invalid w => rfl
  | literal v | reg r => exact absurd trivial h

theorem rd_of_validWord (s : State) (p : Pos) {o : Operand} (h : ValidWord o) :
    ∃ v, rd s p o = .ok v :=
  ((validWord_iff_resolve s).1 h).imp fun _ => rd_of_resolve p

theorem sameQueues_wr (s : State) (d : Dest) (v : Word) : SameQueues s (s.wr d v) := by
  constructor <;> simp

theorem sameStatus_wr (s : State) (d : Dest) (v : Word) : SameStatus s (s.wr d v) := by
  constructor <;> simp

/-- An instruction whose failing check is that of the word of `o` raises InvalidOperand on it. -/
theorem takesInvalid_of_exec {i : Instr} {s : State} {p : Pos} {o : Operand}
    (h : exec i s = complete i.op s (.error (Raise.invalidOperand p o))) : TakesInvalid i s p o :=
  takesException_of_exec h

end Machine

end Sys2Proof
end

section
/-! SUPPORT. What fetch answers: the instruction whose words stand at pc, or the exception of the first
word that cannot be read (40_cycle_and_operands.md rules R101 to R103). -/

namespace Sys2Proof

/-- Word `k` cannot be read, for the reason `e`, and every word before it can. -/
structure FirstFailure {ε : Type} (word : Nat → Except ε Word) (k : Nat) (e : ε) : Prop where
  fails : word k = .error e
  before : ∀ j, j < k → ∃ w, word j = .ok w

section
variable {ε : Type} {word : Nat → Except ε Word} {k : Nat} {e : ε}

theorem readOne_of_firstFailure (mk : Operand → Instr) (h : FirstFailure word k e) (h0 : 0 < k)
    (hk : k < 2) : readOne word mk = .error e := by
  obtain rfl : k = 1 := by omega
  simp [readOne, h.fails]

theorem readTwo_of_firstFailure (mk : Operand → Operand → Instr) (h : FirstFailure word k e)
    (h0 : 0 < k) (hk : k < 3) : readTwo word mk = .error e := by
  obtain rfl | rfl : k = 1 ∨ k = 2 := by omega
  · simp [readTwo, h.fails]
  · obtain ⟨a, ha⟩ := h.before 1 (by omega)
    simp [readTwo, ha, h.fails]

theorem readThree_of_firstFailure (mk : Operand → Operand → Operand → Instr)
    (h : FirstFailure word k e) (h0 : 0 < k) (hk : k < 4) : readThree word mk = .error e := by
  obtain rfl | rfl | rfl : k = 1 ∨ k = 2 ∨ k = 3 := by omega
  · simp [readThree, h.fails]
  · obtain ⟨a, ha⟩ := h.before 1 (by omega)
    simp [readThree, ha, h.fails]
  · obtain ⟨a, ha⟩ := h.before 1 (by omega)
    obtain ⟨b, hb⟩ := h.before 2 (by omega)
    simp [readThree, ha, hb, h.fails]

/-- The operand words are read in ascending order, as many as the opcode has. -/
theorem readOperands_of_firstFailure {o : Op} (h : FirstFailure word k e) (h0 : 0 < k)
    (hk : k < opLength o) : readOperands word o = .error e := by
  cases o with
  | halt | ret | noop => exact absurd h0 (Nat.not_lt.2 (Nat.le_of_lt_succ hk))
  | push | pop | jmp | call | out | inp => exact readOne_of_firstFailure _ h h0 hk
  | set | jt | jf | not | rmem | wmem => exact readTwo_of_firstFailure _ h h0 hk
  | eq | gt | add | mult | mod | and | or => exact readThree_of_firstFailure _ h h0 hk

end

namespace Machine

theorem fetch_of_opcode_error {s : State} {e : Raise} (h : fetchWord s 0 = .error e) :
    fetch s = .error e := by
  simp [fetch, decodeFrom, h]

theorem fetch_of_operand_error {s : State} {w : Word} {o : Op} {k : Nat} {e : Raise}
    (hw : fetchWord s 0 = .ok w) (ho : opOfWord w = some o) (h0 : 0 < k) (hk : k < opLength o)
    (h : FirstFailure (fetchWord s) k e) : fetch s = .error e := by
  simp [fetch, decodeFrom, hw, ho, readOperands_of_firstFailure h h0 hk]

theorem fetchedOpcode_of_error {s : State} {e : Raise} (h : fetchWord s 0 = .error e) :
    fetchedOpcode s = none := by
  simp [fetchedOpcode, h, Except.toOption]

/-- A step whose fetch fails with a raise that has no sub-cause takes that exception. -/
theorem stepTakes_of_fetch_error {s : State} {e : Raise} {w : Option Word} (hr : s.rs = .running)
    (h : fetch s = .error e) (hw : fetchedOpcode s = w) (hsub : e.subCause = none) :
    StepTakes s e.cause w e.operands := by
  subst hw
  refine ⟨_, step_of_fetch_error hr h, ?_⟩
  rw [← hsub]
  exact raised_raise s (fetchedOpcode s) e

theorem stepTakes_of_opcode_error {s : State} {e : Raise} (hr : s.rs = .running)
    (h : fetchWord s 0 = .error e) (hsub : e.subCause = none) :
    StepTakes s e.cause none e.operands :=
  stepTakes_of_fetch_error hr (fetch_of_opcode_error h) (fetchedOpcode_of_error h) hsub

theorem stepTakes_of_operand_error {s : State} {w : Word} {o : Op} {k : Nat} {e : Raise}
    (hr : s.rs = .running) (hw : fetchWord s 0 = .ok w) (ho : opOfWord w = some o) (h0 : 0 < k)
    (hk : k < opLength o) (h : FirstFailure (fetchWord s) k e) (hsub : e.subCause = none) :
    StepTakes s e.cause (some w) e.operands :=
  stepTakes_of_fetch_error hr (fetch_of_operand_error hw ho h0 hk h)
    (fetchedOpcode_of_fetchWord hw) hsub

/-- A step executes the instruction it fetches, in the traced state. -/
theorem step_of_fetch_ok {s : State} {i : Instr} (hr : s.rs = .running) (h : fetch s = .ok i) :
    step s = exec i (s.traced i) := by
  simp [step, hr, cycle, h]

/-- Fetch answers the instruction that the words at pc decode to. -/
theorem fetch_of_decode {s : State} {ws : List Word} {i : Instr} {rest : List Word}
    (hws : ∀ (k : Nat) (w : Word), ws[k]? = some w → fetchWord s k = .ok w)
    (h : decode ws = .ok (i, rest)) : fetch s = .ok i := by
  obtain ⟨hwf, rfl⟩ := decode_eq_ok_iff.1 h
  refine decodeFrom_of_words _ hwf fun k hk => hws k _ ?_
  rw [List.getElem?_append_left hk, List.getElem?_eq_getElem hk]

/-- A fetched instruction ends at 32767 or below (10_state.md rule R26). -/
theorem pc_add_opLength_le_of_fetch {s : State} {i : Instr} (h : fetch s = .ok i) :
    s.pc.toNat + opLength i.op ≤ Config.memWords := by
  have hlen : (encode i).length = 1 + i.operands.length := by simp [opLength_op]
  have hlast := decodeFrom_words h i.operands.length (by omega)
  have hlt : s.pc.toNat + i.operands.length < Config.memWords := memRead_ok_lt hlast
  rw [opLength_op]
  omega

end Machine

end Sys2Proof
end

section
/-! SUPPORT. The step of a suspended engine (60_exceptions.md rule R259). -/

namespace Sys2Proof.Machine

theorem step_of_awaitingInput {s : State} (hr : s.rs = .awaitingInput) : step s = hostTurn s := by
  simp [step, hr]

/-- A host that has a move to make makes it. -/
theorem hostTurn_next {s : State} (h : s.host ≠ []) : ∃ t, hostTurn s = .next t := by
  unfold hostTurn
  split
  · exact absurd ‹_› h
  · exact ⟨_, rfl⟩
  · exact ⟨_, rfl⟩

theorem hostTurn_of_no_move {s : State} (h : s.host = []) : hostTurn s = .fault .awaitingInput := by
  simp [hostTurn, h]

end Sys2Proof.Machine
end

section
/-! SUPPORT. Values below 32768 (00_scope.md rule R5, `V15`): which operations on the state keep them, and
which results are of that range (40_cycle_and_operands.md rule R112). -/

namespace Sys2Proof.Machine

/-! ### The results -/

theorem reduced_lt (n : Nat) : (reduced n).toNat < 32768 := by
  simp only [reduced, BitVec.toNat_ofNat, Config.modulus]
  omega

theorem truthWord_lt (b : Bool) : (truthWord b).toNat < 32768 := by
  cases b <;> decide

theorem andResult_lt {vb : Word} (vc : Word) (hb : vb.toNat < 32768) :
    (andResult vb vc).toNat < 32768 := by
  rw [andResult, BitVec.toNat_and]
  exact Nat.and_le_left.trans_lt hb

theorem orResult_lt {vb vc : Word} (hb : vb.toNat < 32768) (hc : vc.toNat < 32768) :
    (orResult vb vc).toNat < 32768 := by
  rw [orResult, BitVec.toNat_or]
  exact Nat.or_lt_two_pow (n := 15) hb hc

theorem notResult_lt (v : Word) : (notResult v).toNat < 32768 := by
  simp only [notResult, BitVec.toNat_ofNat, Config.modulus]
  omega

/-! ### The state -/

theorem InV15.resolve {s : State} (h : InV15 s) {o : Operand} {v : Word}
    (hv : resolve s o = some v) : v.toNat < 32768 := by
  obtain ⟨hregs, -⟩ := h
  cases o with
  | literal n =>
    obtain rfl : n.setWidth 16 = v := Option.some.inj hv
    rw [BitVec.toNat_setWidth_of_le (by decide)]
    exact n.isLt
  | reg r =>
    obtain rfl : s.reg r = v := Option.some.inj hv
    exact hregs r
  | invalid w => cases hv

/-- Only the registers and the stack matter. -/
theorem InV15.congr {s t : State} (h : InV15 s) (hr : t.regs = s.regs) (hs : t.stack = s.stack) :
    InV15 t := by
  obtain ⟨hregs, hstack⟩ := h
  exact ⟨fun q => State.reg_eq_of_regs hr q ▸ hregs q, hs ▸ hstack⟩

theorem InV15.wr {s : State} (h : InV15 s) (d : Dest) {v : Word} (hv : v.toNat < 32768) :
    InV15 (s.wr d v) := by
  obtain ⟨hregs, hstack⟩ := h
  refine ⟨fun q => ?_, by simpa using hstack⟩
  rw [State.reg_wr]
  split
  · exact hv
  · exact hregs q

theorem InV15.push {s : State} (h : InV15 s) {v : Word} (hv : v.toNat < 32768) :
    InV15 (s.push v) := by
  obtain ⟨hregs, hstack⟩ := h
  refine ⟨hregs, fun w hw => ?_⟩
  obtain hw | hw := List.mem_append.1 hw
  · exact hstack w hw
  · exact List.mem_singleton.1 hw ▸ hv

/-- Taking the top entry off leaves values below 32768, and the entry is one. -/
theorem InV15.pop {s : State} (h : InV15 s) {l : List Word} {v : Word} (hs : s.stack = l ++ [v]) :
    InV15 (s.setStack l) ∧ v.toNat < 32768 := by
  obtain ⟨hregs, hstack⟩ := h
  exact ⟨⟨hregs, fun w hw => hstack w (by simp [hs, show w ∈ l from hw])⟩, hstack v (by simp [hs])⟩

/-- `t` has registers and stack below 32768, and each cell in which it differs from `s` holds such a
value. -/
def EntersV15 (s t : State) : Prop :=
  InV15 t ∧ ∀ n, t.mem.read n ≠ s.mem.read n → ∃ v, t.mem.read n = some v ∧ v.toNat < 32768

theorem entersV15_of_mem {s t : State} (h : InV15 t) (hm : t.mem = s.mem) : EntersV15 s t :=
  ⟨h, fun n hn => absurd (congrArg (Memory.read · n) hm) hn⟩

theorem entersV15_of_write {s t : State} {a : Nat} {v : Word} (h : InV15 t)
    (hm : t.mem = s.mem.write a v) (hv : v.toNat < 32768) : EntersV15 s t := by
  refine ⟨h, fun n hn => ?_⟩
  rw [hm, Memory.read_write] at hn ⊢
  split at hn
  · exact ⟨v, if_pos ‹_›, hv⟩
  · exact absurd rfl hn

/-- A value below 32768 written to a destination enters one register or one cell; `u` may be `s` with an
entry taken off its stack or its queue. -/
theorem entersV15_wr {s u : State} (h : InV15 u) (hm : u.mem = s.mem) (d : Dest) {v : Word}
    (hv : v.toNat < 32768) (o : Op) : EntersV15 s ((u.wr d v).advance o) := by
  have hin : InV15 ((u.wr d v).advance o) := (h.wr d hv).congr rfl rfl
  cases d with
  | reg r => exact entersV15_of_mem hin hm
  | cell c => exact entersV15_of_write hin (congrArg (Memory.write · c.toNat v) hm) hv

/-- An effect lets no larger value in but RMEM's cell, IN's code and CALL's return address. -/
theorem Effect.entersV15 {i : Instr} {s t : State} (he : Effect i s t) (h : InV15 s)
    (hrmem : ∀ a b addr v, i = .rmem a b → resolve s b = some addr →
      memRead s [] addr.toNat = .ok v → v.toNat < 32768)
    (hinp : ∀ a v q, i = .inp a → s.inq = v :: q → v.toNat < 32768)
    (hcall : ∀ a, i = .call a → (returnAddress s).toNat < 32768) : EntersV15 s t := by
  cases he with
  | halt | noop | retHalt | inpWait | jmp | jtTaken | jtUntaken | jfTaken | jfUntaken | out =>
    exact entersV15_of_mem (h.congr rfl rfl) rfl
  | set hb ha => exact entersV15_wr h rfl _ (h.resolve hb) _
  | eq hb hc ha | gt hb hc ha => exact entersV15_wr h rfl _ (truthWord_lt _) _
  | add hb hc ha | mult hb hc ha | mod hb hc hz ha => exact entersV15_wr h rfl _ (reduced_lt _) _
  | and hb hc ha => exact entersV15_wr h rfl _ (andResult_lt _ (h.resolve hb)) _
  | or hb hc ha => exact entersV15_wr h rfl _ (orResult_lt (h.resolve hb) (h.resolve hc)) _
  | not hb ha => exact entersV15_wr h rfl _ (notResult_lt _) _
  | rmem hb hm ha => exact entersV15_wr h rfl _ (hrmem _ _ _ _ rfl hb (hm [])) _
  | wmem ha hb hlt => exact entersV15_of_write (h.congr rfl rfl) rfl (h.resolve hb)
  | @inpTake _ a d v q ha hq =>
    have hrest : InV15 (s.setInq q) := h.congr rfl rfl
    exact entersV15_wr hrest rfl d (hinp a v q rfl hq) _
  | push ha room => exact entersV15_of_mem ((h.push (h.resolve ha)).congr rfl rfl) rfl
  | call ha room => exact entersV15_of_mem ((h.push (hcall _ rfl)).congr rfl rfl) rfl
  | pop hs ha =>
    obtain ⟨hrest, htop⟩ := h.pop hs
    exact entersV15_wr hrest rfl _ htop _
  | retJump hs =>
    obtain ⟨hrest, -⟩ := h.pop hs
    exact entersV15_of_mem (hrest.congr rfl rfl) rfl

theorem resolve_traced (s : State) (i : Instr) (o : Operand) : resolve (s.traced i) o = resolve s o := by
  cases o <;> simp [resolve]

/-- The return address of a fetched CALL is below 32768 but for the CALL at 32766. -/
theorem returnAddress_lt_of_fetch {s : State} {a : Operand} (hf : fetch s = .ok (.call a))
    (hpc : s.pc.toNat ≠ 32766) : (returnAddress s).toNat < 32768 := by
  have hle : s.pc.toNat + 2 ≤ 32768 := pc_add_opLength_le_of_fetch hf
  have hsum : (returnAddress s).toNat = (s.pc.toNat + 2) % 65536 := BitVec.toNat_add s.pc 2
  omega

end Sys2Proof.Machine
end

section
/-! CERTIFICATES. The statements of 40_cycle_and_operands.md, settled. -/

namespace Sys2Proof.Machine

/-- Settles O12: a Running core always has a step; in AwaitingInput the step is the host's turn; in the
terminal run states `step` answers their names. -/
theorem stepHasANextStateExactlyWhenListed : Obligations.StepHasANextStateExactlyWhenListed := by
  intro s
  refine ⟨step_running_next, fun hr hhost => ?_, fun hr hhost => ?_, fun hr => ?_, fun hr => ?_⟩
  · exact step_of_awaitingInput hr ▸ hostTurn_next hhost
  · exact (step_of_awaitingInput hr).trans (hostTurn_of_no_move hhost)
  all_goals simp [step, hr]

/-- Settles O15: the first word that cannot be read decides what fetch answers, and a failing read
raises AddressFault or UnwrittenRead with no sub-cause. -/
theorem failingFetchTakesItsException : Obligations.FailingFetchTakesItsException := by
  intro s hr
  refine ⟨fun hge => ?_, fun hlt hread hfill => ?_, fun w o k hw ho h0 hk hbefore =>
    ⟨fun hge => ?_, fun hlt hread hfill => ?_⟩⟩
  · exact stepTakes_of_opcode_error hr (memRead_of_memWords_le s [] hge) rfl
  · exact stepTakes_of_opcode_error hr (memRead_of_unwritten [] hlt hread hfill) rfl
  · exact stepTakes_of_operand_error hr hw ho h0 hk ⟨memRead_of_memWords_le s [] hge, hbefore⟩ rfl
  · exact stepTakes_of_operand_error hr hw ho h0 hk
      ⟨memRead_of_unwritten [] hlt hread hfill, hbefore⟩ rfl

/-- Settles O21: the class of the word decides what `rd` answers. -/
theorem sourceWordsResolveByClass : Obligations.SourceWordsResolveByClass := by
  intro s p w
  refine ⟨rd_decodeOperand_of_lt s p, fun r hw => ?_, fun hw => ?_, fun m => rd_withMem s m p _⟩
  · rw [decodeOperand_of_reg hw]
    rfl
  · rw [decodeOperand_of_invalidBase_le hw]
    exact ⟨_, rfl, rfl, rfl⟩

/-- Settles O22: the class of the word decides what `destok` answers, and `wr` writes that place. -/
theorem destinationWordsWriteOnePlace : Obligations.DestinationWordsWriteOnePlace := by
  intro s p w v
  refine ⟨fun hw => ?_, fun r hw => ?_, fun hw => ?_⟩
  · rw [decodeOperand_of_lt hw, ← toNat_setWidth_of_lt_regBase hw]
    exact ⟨.cell _, rfl, Memory.read_write_same _ _ _, fun n hn => Memory.read_write_other _ _ hn,
      fun _ => rfl, sameQueues_wr s _ v, sameStatus_wr s _ v, rfl⟩
  · rw [decodeOperand_of_reg hw]
    refine ⟨.reg r, rfl, by simp, fun q hq => ?_, fun _ => rfl, sameQueues_wr s _ v,
      sameStatus_wr s _ v, rfl⟩
    simp [hq.symm]
  · rw [decodeOperand_of_invalidBase_le hw]
    exact ⟨_, rfl, rfl, rfl⟩

/-- Settles O45: the six are one shape, whose checks stand in the order `b`, `c`, `a`. -/
theorem threeOperandInstructionsCheckSourcesThenDestination :
    Obligations.ThreeOperandInstructionsCheckSourcesThenDestination := by
  intro i s a b c hi
  have hex : ∃ f, exec i s = binaryResult i.op f a b c s := by
    obtain rfl | rfl | rfl | rfl | rfl | rfl := hi <;> exact ⟨_, rfl⟩
  obtain ⟨f, hex⟩ := hex
  refine ⟨fun hb => ?_, fun hb hc => ?_, fun hb hc ha => ?_⟩
  all_goals refine takesInvalid_of_exec (hex.trans ?_)
  · simp [binaryResult, rd_of_not_validWord s .b hb]
  · obtain ⟨vb, hvb⟩ := rd_of_validWord s .b hb
    simp [binaryResult, hvb, rd_of_not_validWord s .c hc]
  · obtain ⟨vb, hvb⟩ := rd_of_validWord s .b hb
    obtain ⟨vc, hvc⟩ := rd_of_validWord s .c hc
    simp [binaryResult, hvb, hvc, destok_of_not_validWord .a ha]

/-- Settles O56: an exception keeps registers, stack and memory; an effect is that of the fetched
instruction in the traced state, which differs from `s` in the trace only. -/
theorem valuesStayBelow32768WithoutTheThreeEntries :
    Obligations.ValuesStayBelow32768WithoutTheThreeEntries := by
  intro s t hr hv hst hrmem hinp hcall
  change EntersV15 s t
  obtain ⟨e, -, rfl⟩ | ⟨i, hf, hex⟩ := step_running_cases hr hst
  · exact entersV15_of_mem (hv.congr rfl rfl) rfl
  have hmem : (s.traced i).mem = s.mem := State.traced_mem s i
  have hvt : InV15 (s.traced i) := hv.congr (by simp) (by simp)
  obtain he | ⟨e, -, rfl⟩ := exec_cases hex
  · have hent : EntersV15 (s.traced i) t := by
      refine he.entersV15 hvt ?_ ?_ ?_
      · rintro a b addr v rfl hb hm
        rw [resolve_traced] at hb
        rw [memRead_congr hmem (by simp)] at hm
        exact hrmem a b addr v hf (sourceIs_iff_resolve.2 hb) hm
      · rintro a v q rfl hq
        exact hinp a v q hf (by simpa using hq)
      · rintro a rfl
        exact returnAddress_lt_of_fetch (by simpa using hf) (by simpa using hcall a hf)
    rwa [EntersV15, hmem] at hent
  · exact entersV15_of_mem (hvt.congr rfl rfl) hmem

/-- Settles O14: fetch answers what the words decode to, and `State.traced` is the state of the
statement. -/
theorem stepExecutesTheDecodedInstruction : Obligations.StepExecutesTheDecodedInstruction :=
  fun _ _ _ _ hr hws hdec => step_of_fetch_ok hr (fetch_of_decode hws hdec)

end Sys2Proof.Machine
end

section
/-! SUPPORT. What the advance of pc and a change of run state leave as it was, in the vocabulary of the
statements. -/

namespace Sys2Proof.Machine

theorem sameRegs_advance (s : State) (o : Op) : SameRegs s (s.advance o) := fun q => s.reg_advance o q

theorem sameCells_advance (s : State) (o : Op) : SameCells s (s.advance o) := fun n => by
  rw [s.advance_mem]

theorem sameQueues_advance (s : State) (o : Op) : SameQueues s (s.advance o) := by
  constructor <;> simp

theorem sameStatus_advance (s : State) (o : Op) : SameStatus s (s.advance o) := by
  constructor <;> simp

theorem sameRegs_setRs (s : State) (v : RunState) : SameRegs s (s.setRs v) := fun q => s.reg_setRs v q

theorem sameCells_setRs (s : State) (v : RunState) : SameCells s (s.setRs v) := fun n => by
  rw [s.setRs_mem]

theorem sameQueues_setRs (s : State) (v : RunState) : SameQueues s (s.setRs v) := by
  constructor <;> simp

/-- A change of run state is undone by putting the old one back. -/
theorem sameStatus_setRs_restored (s : State) (v : RunState) :
    SameStatus s { s.setRs v with rs := s.rs } := by
  constructor <;> simp

end Sys2Proof.Machine
end

section
/-! CERTIFICATES. The statements of 41_halt_noop.md, settled. -/

namespace Sys2Proof.Machine

/-- Settles O26: HALT's one effect is the change of run state to Halted. -/
theorem haltEntersHaltedAndChangesNothingElse :
    Obligations.HaltEntersHaltedAndChangesNothingElse := fun s =>
  ⟨s.setRs .halted, exec_of_effect (.halt s), s.setRs_rs .halted, s.setRs_pc .halted,
    sameRegs_setRs s _, sameCells_setRs s _, sameQueues_setRs s _, sameStatus_setRs_restored s _⟩

/-- Settles O27: NOOP's one effect is the advance, by a length of one word. -/
theorem noopOnlyAdvances : Obligations.NoopOnlyAdvances := fun s =>
  ⟨s.advance .noop, exec_of_effect (.noop s), s.advance_pc .noop,
    sameRegs_advance s _, sameCells_advance s _, sameQueues_advance s _, sameStatus_advance s _⟩

end Sys2Proof.Machine
end

section
/-! SUPPORT. What an instruction with a destination leaves, in the vocabulary of the statements, and the
exceptions of a failing first check and of a taken jump's target. -/

namespace Sys2Proof.Machine

/-! ### Effects -/

/-- A write to the place that `a` names, from a state with the registers and cells of `s`, puts the value
there and nowhere else. -/
theorem puts_wr_advance {s u : State} {a : Operand} {d : Dest} (ha : destOf a = some d)
    (hregs : SameRegs s u) (hcells : SameCells s u) (v : Word) (o : Op) :
    Puts a v s ((u.wr d v).advance o) := by
  cases a with
  | literal n =>
    obtain rfl := Option.some.inj ha
    exact ⟨Memory.read_write_same _ _ v,
      fun k hk => (Memory.read_write_other _ v hk).trans (hcells k), hregs⟩
  | reg r =>
    obtain rfl := Option.some.inj ha
    refine ⟨by simp, fun q hq => ?_, hcells⟩
    simpa [hq.symm] using hregs q
  | invalid w => cases ha

theorem sameQueues_wr_advance (s : State) (d : Dest) (v : Word) (o : Op) :
    SameQueues s ((s.wr d v).advance o) := by
  constructor <;> simp

/-- An effect that keeps the run state keeps the whole status. -/
theorem Effect.sameStatus {i : Instr} {s t : State} (h : Effect i s t) (hrs : t.rs = s.rs) :
    SameStatus s t := by
  obtain ⟨herr, htraceEn, htraceLog, hparams, hhost⟩ := h.frame
  exact ⟨hrs, htraceEn, herr, htraceLog, hparams, hhost⟩

/-! ### Exceptions -/

/-- An instruction whose first check fails on the word of `o` raises on it, whatever follows. -/
theorem takesInvalid_of_first_check {i : Instr} {s : State} {p : Pos} {o : Operand} {α : Type}
    {check : Check α} {rest : α → Check State}
    (hcheck : check = .error (Raise.invalidOperand p o))
    (hex : exec i s = complete i.op s (check >>= rest)) : TakesInvalid i s p o :=
  takesInvalid_of_exec (by rw [hex, hcheck, except_error_bind])

/-- A jump that is taken checks its target word. -/
theorem conditionalJump_of_invalid_target {s : State} {o : Op} {taken : Word → Bool}
    {a b : Operand} {va : Word} (ha : SourceIs s a va) (htaken : taken va = true)
    (hb : ¬ ValidWord b) :
    conditionalJump o taken a b s = complete o s (.error (Raise.invalidOperand .b b)) := by
  have hva := rd_of_resolve .a (sourceIs_iff_resolve.1 ha)
  simp [conditionalJump, hva, htaken, rd_of_not_validWord s .b hb]

end Sys2Proof.Machine
end

section
/-! CERTIFICATES. The statements of 42_move_stack.md, settled. -/

namespace Sys2Proof.Machine

/-- Settles O28: SET's one effect is the write of the resolved source, then the advance. -/
theorem setCopiesTheSourceWhole : Obligations.SetCopiesTheSourceWhole := by
  intro s a b v hb hvalid
  obtain ⟨d, ha⟩ := validWord_iff_destOf.1 hvalid
  have heffect := Effect.set (sourceIs_iff_resolve.1 hb) ha
  exact ⟨_, exec_of_effect heffect, puts_wr_advance ha (fun _ => rfl) (fun _ => rfl) v .set,
    by simp [opLength], sameQueues_wr_advance s d v .set, heffect.sameStatus (by simp)⟩

/-- Settles O29: PUSH's one effect is the push of the resolved source, then the advance. -/
theorem pushPutsTheSourceOnTop : Obligations.PushPutsTheSourceOnTop := by
  intro s a v ha hroom
  have heffect := Effect.push (sourceIs_iff_resolve.1 ha) hroom
  exact ⟨_, exec_of_effect heffect, rfl, rfl, rfl, rfl, fun _ => rfl, fun _ => rfl,
    heffect.sameStatus rfl⟩

/-- Settles O30: POP's one effect is the write of the top from the state without it, then the
advance. -/
theorem popMovesTheTopToItsDestination : Obligations.PopMovesTheTopToItsDestination := by
  intro s a l v hs hvalid
  obtain ⟨d, ha⟩ := validWord_iff_destOf.1 hvalid
  have heffect := Effect.pop hs ha
  exact ⟨_, exec_of_effect heffect, puts_wr_advance ha (fun _ => rfl) (fun _ => rfl) v .pop,
    by simp, by simp [opLength], by simp, by simp, heffect.sameStatus (by simp)⟩

/-- Settles O47: the two are one shape, whose checks stand in the order `b`, `a`. -/
theorem setAndNotCheckTheSourceThenTheDestination :
    Obligations.SetAndNotCheckTheSourceThenTheDestination := by
  intro i s a b hi
  have hex : ∃ f, exec i s = unaryResult i.op f a b s := by
    obtain rfl | rfl := hi <;> exact ⟨_, rfl⟩
  obtain ⟨f, hex⟩ := hex
  refine ⟨fun hb => takesInvalid_of_first_check (rd_of_not_validWord s .b hb) hex,
    fun hb ha => takesInvalid_of_exec (hex.trans ?_)⟩
  obtain ⟨vb, hvb⟩ := rd_of_validWord s .b hb
  simp [unaryResult, hvb, destok_of_not_validWord .a ha]

/-- Settles O48: the six resolve `a` before anything else, and a taken jump then resolves `b`. -/
theorem sourceOnlyInstructionsRaiseOnAnInvalidWord :
    Obligations.SourceOnlyInstructionsRaiseOnAnInvalidWord := by
  intro s a b
  refine ⟨fun ha => ?_, fun va ha hne hb => ?_, fun va ha hz hb => ?_⟩
  · have hcheck := rd_of_not_validWord s .a ha
    refine ⟨?_, ?_, ?_, ?_, ?_, ?_⟩ <;> exact takesInvalid_of_first_check hcheck rfl
  · exact takesInvalid_of_exec (conditionalJump_of_invalid_target ha (nonZero_iff.2 hne) hb)
  · exact takesInvalid_of_exec
      (conditionalJump_of_invalid_target ha (by simp [nonZero_eq_false_iff.2 hz]) hb)

/-- Settles O50: POP's first test is that of the empty stack, its second and IN's first that of the
destination. -/
theorem popAndInRaiseBeforeAnyEffect : Obligations.PopAndInRaiseBeforeAnyEffect := by
  intro s a
  refine ⟨fun hempty => ?_, fun hne ha => ?_,
    fun ha => takesInvalid_of_first_check (destok_of_not_validWord .a ha) rfl⟩
  · have hex : exec (.pop a) s =
        .next (s.raise (some (opcodeWord .pop)) (Raise.stackUnderflow a)) := by
      simp [exec, execPop, pop?_none.2 hempty]
    exact takesException_of_exec hex
  · obtain ⟨⟨v, t⟩, hpop⟩ := Option.ne_none_iff_exists'.1 (mt pop?_none.1 hne)
    refine takesInvalid_of_exec ?_
    simp [exec, execPop, hpop, destok_of_not_validWord .a ha, Instr.op]

end Sys2Proof.Machine
end

section
/-! SUPPORT. What an instruction does whose one effect is a write to its destination, in the vocabulary of
the statements, and the values that EQ and GT write. -/

namespace Sys2Proof.Machine

/-- An instruction whose effect is a write to the place that `a` names, then the advance, completes: it
puts the value there, adds its length to pc and leaves everything else (40_cycle_and_operands.md rule
R105). -/
theorem exec_puts_of_effect {i : Instr} {s : State} {a : Operand} {d : Dest} {v : Word} {o : Op}
    (ha : destOf a = some d) (heffect : Effect i s ((s.wr d v).advance o)) :
    ∃ t, exec i s = .next t ∧ Puts a v s t ∧ t.pc = s.pc + BitVec.ofNat 16 (opLength o) ∧
      SameQueues s t ∧ SameStatus s t :=
  ⟨_, exec_of_effect heffect, puts_wr_advance ha (fun _ => rfl) (fun _ => rfl) v o,
    by simp, sameQueues_wr_advance s d v o, heffect.sameStatus (by simp)⟩

/-- Two words are equal exactly when their unsigned values are. -/
theorem eqResult_eq_ite (vb vc : Word) :
    eqResult vb vc = if vb.toNat = vc.toNat then 1 else 0 := by
  simp [eqResult, truthWord, BitVec.toNat_inj]

theorem gtResult_eq_ite (vb vc : Word) :
    gtResult vb vc = if vc.toNat < vb.toNat then 1 else 0 := by
  simp [gtResult, truthWord]

end Sys2Proof.Machine
end

section
/-! CERTIFICATES. The statement of 43_compare.md, settled. -/

namespace Sys2Proof.Machine

/-- Settles O31: the one effect of EQ and of GT is the write of its result on the values both sources
have before the write, then the advance. -/
theorem eqAndGtWriteTheUnsignedComparison :
    Obligations.EqAndGtWriteTheUnsignedComparison := by
  intro s a b c vb vc hb hc hvalid
  obtain ⟨d, ha⟩ := validWord_iff_destOf.1 hvalid
  rw [sourceIs_iff_resolve] at hb hc
  rw [← eqResult_eq_ite, ← gtResult_eq_ite]
  exact ⟨exec_puts_of_effect ha (.eq hb hc ha), exec_puts_of_effect ha (.gt hb hc ha)⟩

end Sys2Proof.Machine
end

section
/-! SUPPORT. What an instruction does whose one effect is on pc, in the vocabulary of the statements. -/

namespace Sys2Proof.Machine

/-- An instruction whose effect is to set pc completes and leaves everything else. The advance is such
an effect too: it sets pc to the 16-bit sum of pc and the length. -/
theorem exec_pc_of_effect {i : Instr} {s : State} {v : Word} (heffect : Effect i s (s.setPc v)) :
    ∃ t, exec i s = .next t ∧ t.pc = v ∧
      SameRegs s t ∧ SameCells s t ∧ SameQueues s t ∧ SameStatus s t :=
  ⟨_, exec_of_effect heffect, rfl, fun _ => rfl, fun _ => rfl, ⟨rfl, rfl, rfl⟩,
    heffect.sameStatus rfl⟩

end Sys2Proof.Machine
end

section
/-! CERTIFICATES. The statements of 44_jumps.md, settled. -/

namespace Sys2Proof.Machine

/-- Settles O33: the condition decides which effect a jump has, to set pc to the resolved target or to
advance by three words; the second does not resolve the target. -/
theorem jtAndJfJumpOnTheCondition : Obligations.JtAndJfJumpOnTheCondition := by
  intro s a b va ha
  rw [sourceIs_iff_resolve] at ha
  refine ⟨fun vb hne hb => ?jtTaken, fun hz => ?jtUntaken, fun vb hz hb => ?jfTaken,
    fun hne => ?jfUntaken⟩
  case jtTaken =>
    exact exec_pc_of_effect (.jtTaken ha (nonZero_iff.2 hne) (sourceIs_iff_resolve.1 hb))
  case jtUntaken => exact exec_pc_of_effect (.jtUntaken ha (nonZero_eq_false_iff.2 hz))
  case jfTaken =>
    exact exec_pc_of_effect (.jfTaken ha (nonZero_eq_false_iff.2 hz) (sourceIs_iff_resolve.1 hb))
  case jfUntaken => exact exec_pc_of_effect (.jfUntaken ha (nonZero_iff.2 hne))

/-- Settles O32: JMP's one effect is to set pc to the resolved source. -/
theorem jmpLoadsTheTarget : Obligations.JmpLoadsTheTarget := fun _ _ _ ha =>
  exec_pc_of_effect (.jmp (sourceIs_iff_resolve.1 ha))

end Sys2Proof.Machine
end

section
/-! SUPPORT. What an instruction does whose one effect is the write of a result reduced modulo 32768
(45_arithmetic.md rule R173), in the vocabulary of the statements. -/

namespace Sys2Proof.Machine

theorem reduced_toNat (n : Nat) : (reduced n).toNat = n % 32768 :=
  Nat.mod_eq_of_lt ((Nat.mod_lt n (by decide)).trans (by decide))

/-- An instruction whose effect is the write of the reduced `n` to the place that `a` names, then the
advance, completes: the place holds `n` modulo 32768 and everything else but pc is as before. -/
theorem exec_puts_reduced_of_effect {i : Instr} {s : State} {a : Operand} {d : Dest} {n : Nat}
    {o : Op} (ha : destOf a = some d) (heffect : Effect i s ((s.wr d (reduced n)).advance o)) :
    ∃ t v, exec i s = .next t ∧ v.toNat = n % 32768 ∧ Puts a v s t ∧
      t.pc = s.pc + BitVec.ofNat 16 (opLength o) ∧ SameQueues s t ∧ SameStatus s t := by
  obtain ⟨t, hexec, hframe⟩ := exec_puts_of_effect ha heffect
  exact ⟨t, reduced n, hexec, reduced_toNat n, hframe⟩

end Sys2Proof.Machine
end

section
/-! CERTIFICATES. The statements of 45_arithmetic.md, settled. -/

namespace Sys2Proof.Machine

/-- Settles O34: the one effect of ADD and of MULT is the write of the reduced sum or product of the
values both sources have before the write, then the advance. -/
theorem addAndMultWriteTheExactResultModulo32768 :
    Obligations.AddAndMultWriteTheExactResultModulo32768 := by
  intro s a b c vb vc hb hc hvalid
  obtain ⟨d, ha⟩ := validWord_iff_destOf.1 hvalid
  rw [sourceIs_iff_resolve] at hb hc
  exact ⟨exec_puts_reduced_of_effect ha (.add hb hc ha),
    exec_puts_reduced_of_effect ha (.mult hb hc ha)⟩

/-- Settles O35: where the divisor is not 0, MOD's one effect is the write of the reduced remainder,
then the advance. -/
theorem modWritesTheRemainder : Obligations.ModWritesTheRemainder := by
  intro s a b c vb vc hb hc hne hvalid
  obtain ⟨d, ha⟩ := validWord_iff_destOf.1 hvalid
  rw [sourceIs_iff_resolve] at hb hc
  exact exec_puts_reduced_of_effect ha (.mod hb hc hne ha)

/-- Settles O46: MOD's checks stand in the order `b`, `c`, zero divisor, `a`; each clause passes those
before the one that fails. -/
theorem modChecksSourcesDivisorThenDestination :
    Obligations.ModChecksSourcesDivisorThenDestination := by
  intro s a b c
  refine ⟨fun hb => ?dividend, fun hb hc => ?divisor, fun hb hc => ?zeroDivisor,
    fun vc hb hc hne ha => ?destination⟩
  case dividend => exact takesInvalid_of_first_check (rd_of_not_validWord s .b hb) rfl
  all_goals obtain ⟨vb, hvb⟩ := rd_of_validWord s .b hb
  case divisor =>
    refine takesInvalid_of_exec ?_
    simp [exec, execMod, hvb, rd_of_not_validWord s .c hc, Instr.op]
  all_goals have hvc := rd_of_resolve .c (sourceIs_iff_resolve.1 hc)
  case zeroDivisor =>
    have hex : exec (.mod a b c) s =
        .next (s.raise (some (opcodeWord .mod)) (Raise.divisorZero c)) := by
      simp [exec, execMod, hvb, hvc]
    exact takesException_of_exec hex
  case destination =>
    refine takesInvalid_of_exec ?_
    simp only [exec, execMod, hvb, hvc, except_ok_bind, if_neg hne,
      destok_of_not_validWord .a ha, except_error_bind, Instr.op]

end Sys2Proof.Machine
end

section
/-! SUPPORT. The results of AND, OR, NOT and ADD, as numbers and bit by bit, and the laws they obey
(46_logical.md rules R180 to R183, 45_arithmetic.md rule R173). -/

namespace Sys2Proof.Machine

/-! ### The bits of the results -/

theorem testBit_andResult (v w : Word) (k : Nat) :
    (andResult v w).toNat.testBit k = (v.toNat.testBit k && w.toNat.testBit k) := by
  rw [andResult, BitVec.toNat_and, Nat.testBit_and]

theorem testBit_orResult (v w : Word) (k : Nat) :
    (orResult v w).toNat.testBit k = (v.toNat.testBit k || w.toNat.testBit k) := by
  rw [orResult, BitVec.toNat_or, Nat.testBit_or]

theorem notResult_toNat (v : Word) : (notResult v).toNat = 32767 - v.toNat % 32768 :=
  Nat.mod_eq_of_lt ((Nat.sub_le _ _).trans_lt (by decide))

/-- The arithmetic form of the complement inverts the 15 bits below bit 15 and clears the rest. -/
theorem testBit_notResult (v : Word) (k : Nat) :
    (notResult v).toNat.testBit k = (decide (k < 15) && !v.toNat.testBit k) := by
  have hmod : v.toNat % 2 ^ 15 < 2 ^ 15 := Nat.mod_lt _ (by decide)
  have hform : (notResult v).toNat = 2 ^ 15 - (v.toNat % 2 ^ 15 + 1) := by
    rw [notResult_toNat]
    omega
  rw [hform, Nat.testBit_two_pow_sub_succ hmod, Nat.testBit_mod_two_pow]
  cases decide (k < 15) <;> rfl

/-! ### Laws -/

theorem notResult_notResult {v : Word} (hv : v.toNat < 32768) : notResult (notResult v) = v := by
  apply BitVec.eq_of_toNat_eq
  simp only [notResult_toNat]
  omega

/-- De Morgan's law for AND, bit by bit; it needs no bound, since NOT clears bit 15. -/
theorem notResult_andResult (v w : Word) :
    notResult (andResult v w) = orResult (notResult v) (notResult w) := by
  refine BitVec.eq_of_toNat_eq (Nat.eq_of_testBit_eq fun k => ?_)
  rw [testBit_notResult, testBit_andResult, testBit_orResult, testBit_notResult, testBit_notResult,
    Bool.not_and, Bool.and_or_distrib_left]

/-- De Morgan's law for OR, bit by bit; it needs no bound, since NOT clears bit 15. -/
theorem notResult_orResult (v w : Word) :
    notResult (orResult v w) = andResult (notResult v) (notResult w) := by
  refine BitVec.eq_of_toNat_eq (Nat.eq_of_testBit_eq fun k => ?_)
  rw [testBit_notResult, testBit_orResult, testBit_andResult, testBit_notResult, testBit_notResult,
    Bool.not_or]
  cases decide (k < 15) <;> rfl

theorem addResult_toNat (v w : Word) : (addResult v w).toNat = (v.toNat + w.toNat) % 32768 :=
  reduced_toNat _

/-- A word and its complement add to 32767, so one more gives 0. -/
theorem addResult_notResult_one (v : Word) : addResult (addResult v (notResult v)) 1 = 0 := by
  have hsum : (addResult v (notResult v)).toNat = 32767 := by
    rw [addResult_toNat, notResult_toNat]
    omega
  apply BitVec.eq_of_toNat_eq
  rw [addResult_toNat, hsum]
  rfl

/-- To add the complement of `w` plus 1 takes `w` off again, modulo 32768. -/
theorem addResult_negated (v w : Word) :
    addResult (addResult v w) (addResult (notResult w) 1) = addResult v 0 := by
  have hone : (1 : Word).toNat = 1 := rfl
  have hzero : (0 : Word).toNat = 0 := rfl
  apply BitVec.eq_of_toNat_eq
  simp only [addResult_toNat, notResult_toNat, hone, hzero]
  omega

end Sys2Proof.Machine
end

section
/-! CERTIFICATES. The statements of 46_logical.md, settled. -/

namespace Sys2Proof.Machine

/-- Settles O36: the one effect of AND and of OR is the write of the bitwise result on the values
both sources have before the write, then the advance. -/
theorem andAndOrWorkOnAllSixteenBits : Obligations.AndAndOrWorkOnAllSixteenBits := by
  intro s a b c vb vc hb hc hvalid
  obtain ⟨d, ha⟩ := validWord_iff_destOf.1 hvalid
  rw [sourceIs_iff_resolve] at hb hc
  obtain ⟨t, hand, handFrame⟩ := exec_puts_of_effect ha (.and hb hc ha)
  obtain ⟨u, hor, horFrame⟩ := exec_puts_of_effect ha (.or hb hc ha)
  exact ⟨⟨t, andResult vb vc, hand, fun k _ => testBit_andResult vb vc k, handFrame⟩,
    ⟨u, orResult vb vc, hor, fun k _ => testBit_orResult vb vc k, horFrame⟩⟩

/-- Settles O37: NOT's one effect is the write of the complement of the resolved source, then the
advance. -/
theorem notInvertsFifteenBits : Obligations.NotInvertsFifteenBits := by
  intro s a b vb hb hvalid
  obtain ⟨d, ha⟩ := validWord_iff_destOf.1 hvalid
  obtain ⟨t, hexec, hframe⟩ := exec_puts_of_effect ha (.not (sourceIs_iff_resolve.1 hb) ha)
  refine ⟨t, notResult vb, hexec, notResult_toNat vb, fun k hk => ?_, testBit_notResult vb 15,
    hframe⟩
  rw [testBit_notResult, decide_eq_true hk, Bool.true_and]

/-- Settles O60: each conjunct is one of the laws above, De Morgan's without its bounds. -/
theorem logicalResultsObeyTheLaws : Obligations.LogicalResultsObeyTheLaws :=
  ⟨notResult_lt, fun _ => notResult_notResult,
    fun v w _ _ => ⟨notResult_andResult v w, notResult_orResult v w⟩,
    fun v w => ⟨addResult_notResult_one v, addResult_negated v w⟩⟩

end Sys2Proof.Machine
end

section
/-! SUPPORT. RMEM and WMEM once their source words have resolved (47_memory_access.md rules R190, R191),
and the exception of the first check that is left. -/

namespace Sys2Proof.Machine

/-- An instruction of whose checks the first fails with `e` takes `e`, whatever follows. -/
theorem takesException_of_first_check {i : Instr} {s : State} {e : Raise} {α : Type}
    {check : Check α} {rest : α → Check State} (hcheck : check = .error e)
    (hex : exec i s = complete i.op s (check >>= rest)) :
    TakesException i s e.cause e.subCause e.operands :=
  takesException_of_exec (by rw [hex, hcheck, except_error_bind, complete_error])

/-- With its address known, RMEM reads the cell, then checks its destination. -/
theorem exec_rmem_of_resolve {s : State} {b : Operand} {addr : Word} (a : Operand)
    (hb : resolve s b = some addr) :
    exec (.rmem a b) s = complete .rmem s
      (memRead s [operandEntry .b b (some addr)] addr.toNat >>= fun v =>
        destok .a a >>= fun d => .ok ((s.wr d v).advance .rmem)) := by
  simp only [exec, execRmem, rd_of_resolve .b hb, except_ok_bind]

/-- With its address known, WMEM checks its value word, then writes the cell. -/
theorem exec_wmem_of_resolve {s : State} {a : Operand} {addr : Word} (b : Operand)
    (ha : resolve s a = some addr) :
    exec (.wmem a b) s = complete .wmem s
      (rd s .b b >>= fun v => memWrite s [operandEntry .a a (some addr)] addr.toNat v >>= fun t =>
        .ok (t.advance .wmem)) := by
  simp only [exec, execWmem, rd_of_resolve .a ha, except_ok_bind]

end Sys2Proof.Machine
end

section
/-! CERTIFICATES. The statements of 47_memory_access.md, settled. -/

namespace Sys2Proof.Machine

/-- Settles O38: the cell is readable, by its content or by MEM_FILL, and RMEM's one effect is the write
of what was read, then the advance. -/
theorem rmemCopiesTheAddressedCell : Obligations.RmemCopiesTheAddressedCell := by
  intro s a b addr v hb hlt hvalid hcell
  obtain ⟨d, ha⟩ := validWord_iff_destOf.1 hvalid
  have hread (src : List ErrEntry) : memRead s src addr.toNat = .ok v := by
    obtain hdefined | ⟨hundefined, hfill⟩ := hcell
    · exact memRead_of_read src hlt hdefined
    · exact memRead_of_fill src hlt hundefined hfill
  exact exec_puts_of_effect ha (.rmem (sourceIs_iff_resolve.1 hb) hread ha)

/-- Settles O39: WMEM's one effect is the write of the addressed cell, then the advance. -/
theorem wmemStoresInTheAddressedCell : Obligations.WmemStoresInTheAddressedCell := by
  intro s a b addr v ha hb hlt
  rw [sourceIs_iff_resolve] at ha hb
  have heffect := Effect.wmem ha hb hlt
  exact ⟨_, exec_of_effect heffect, Memory.read_write_same _ _ v,
    fun n hn => Memory.read_write_other _ v hn, fun _ => rfl, rfl, ⟨rfl, rfl, rfl⟩,
    heffect.sameStatus rfl⟩

/-- Settles O51: RMEM's checks stand in the order address word, access, destination; the access fails on
an address of 32768 or more and on an undefined cell without MEM_FILL. -/
theorem rmemRaisesInOrder : Obligations.RmemRaisesInOrder := by
  intro s a b
  refine ⟨fun hb => ?addressWord, fun addr hb hge => ?addressFault,
    fun addr hb hlt hundefined hfill => ?unwrittenRead, fun addr v hb hread ha => ?destination⟩
  case addressWord => exact takesInvalid_of_first_check (rd_of_not_validWord s .b hb) rfl
  all_goals have hex := exec_rmem_of_resolve a (sourceIs_iff_resolve.1 hb)
  case addressFault => exact takesException_of_first_check (memRead_of_memWords_le s _ hge) hex
  case unwrittenRead =>
    exact takesException_of_first_check (memRead_of_unwritten _ hlt hundefined hfill) hex
  case destination =>
    rw [memRead_ok_src hread, except_ok_bind] at hex
    exact takesInvalid_of_first_check (destok_of_not_validWord .a ha) hex

/-- Settles O52: WMEM's checks stand in the order address word, value word, access; the access fails on
an address of 32768 or more. -/
theorem wmemRaisesInOrder : Obligations.WmemRaisesInOrder := by
  intro s a b
  refine ⟨fun ha => ?addressWord, fun ha hb => ?valueWord, fun addr ha hb hge => ?addressFault⟩
  case addressWord => exact takesInvalid_of_first_check (rd_of_not_validWord s .a ha) rfl
  case valueWord =>
    obtain ⟨addr, haddr⟩ := (validWord_iff_resolve s).1 ha
    exact takesInvalid_of_first_check (rd_of_not_validWord s .b hb) (exec_wmem_of_resolve b haddr)
  case addressFault =>
    obtain ⟨v, hv⟩ := rd_of_validWord s .b hb
    have hex := exec_wmem_of_resolve b (sourceIs_iff_resolve.1 ha)
    rw [hv, except_ok_bind] at hex
    exact takesException_of_first_check (memWrite_of_memWords_le s _ v hge) hex

end Sys2Proof.Machine
end

section
/-! SUPPORT. The return address of a CALL (48_call_return.md rule R200). -/

namespace Sys2Proof.Machine

/-- The return address does not wrap where a CALL can be fetched (10_state.md rule R26). -/
theorem returnAddress_toNat {s : State} (hpc : s.pc.toNat ≤ 32766) :
    (returnAddress s).toNat = s.pc.toNat + 2 := by
  have hsum : (returnAddress s).toNat = (s.pc.toNat + 2) % 65536 := BitVec.toNat_add s.pc 2
  omega

end Sys2Proof.Machine
end

section
/-! CERTIFICATES. The statements of 48_call_return.md, settled. -/

namespace Sys2Proof.Machine

/-- Settles O40: CALL's one effect is the push of the return address, then the jump. -/
theorem callPushesTheReturnAddressAndJumps :
    Obligations.CallPushesTheReturnAddressAndJumps := by
  intro s a v ha hroom
  have heffect := Effect.call (sourceIs_iff_resolve.1 ha) hroom
  exact ⟨_, returnAddress s, exec_of_effect heffect, rfl, rfl, returnAddress_toNat, rfl, rfl,
    fun _ => rfl, fun _ => rfl, heffect.sameStatus rfl⟩

/-- Settles O41: the stack decides which of its two effects RET has. -/
theorem retPopsTheProgramCounterOrHalts : Obligations.RetPopsTheProgramCounterOrHalts := by
  intro s
  refine ⟨fun l v hs => ?jumps, fun hs => ?halts⟩
  case jumps =>
    have heffect := Effect.retJump hs
    exact ⟨_, exec_of_effect heffect, rfl, rfl, rfl, rfl, fun _ => rfl, fun _ => rfl,
      heffect.sameStatus rfl⟩
  case halts =>
    exact ⟨_, exec_of_effect (.retHalt hs), rfl, rfl, sameRegs_setRs s _, sameCells_setRs s _,
      sameQueues_setRs s _, sameStatus_setRs_restored s _⟩

/-- Settles O59: RET pops the return address that CALL pushed on the stack of `s`. -/
theorem callThenRetReturnsAfterTheCall : Obligations.CallThenRetReturnsAfterTheCall := by
  intro s a v ha hroom hpc
  have hcall := Effect.call (sourceIs_iff_resolve.1 ha) hroom
  have hret : Effect .ret ((s.push (returnAddress s)).setPc v) _ := .retJump rfl
  exact ⟨_, _, exec_of_effect hcall, exec_of_effect hret, returnAddress_toNat hpc, rfl,
    fun _ => rfl, fun _ => rfl, rfl, rfl, ⟨rfl, rfl, rfl, rfl, rfl, rfl⟩⟩

end Sys2Proof.Machine
end

section
/-! SUPPORT. The two moves of the host as steps (49_io.md rules R214, R218), and an IN that waits
and is answered (rule R216). -/

namespace Sys2Proof.Machine

theorem step_of_supplyLine {s : State} {line : List Word} {rest : List HostAction}
    (hr : s.rs = .awaitingInput) (hh : s.host = .supplyLine line :: rest) :
    step s = .next ((s.setHost rest).supplyLine line) := by
  simp [step_of_awaitingInput hr, hostTurn, hh]

theorem step_of_debugAssist {s : State} {rest : List HostAction}
    (hr : s.rs = .awaitingInput) (hh : s.host = .debugAssist :: rest) :
    step s = .next (s.setHost rest).debugAssist := by
  simp [step_of_awaitingInput hr, hostTurn, hh]

theorem State.eq_of_traced (s : State) (i : Instr) :
    s.traced i = { s with traceLog := (s.traced i).traceLog } := by
  unfold State.traced; split <;> rfl

/-- The step at an IN that finds the queue empty. -/
theorem step_of_waiting_input {s : State} {a : Operand} (hr : s.rs = .running)
    (hf : fetch s = .ok (.inp a)) (ha : ValidWord a) (hq : s.inq = []) :
    step s = .next ((s.traced (.inp a)).setRs .awaitingInput) := by
  obtain ⟨d, hd⟩ := validWord_iff_destOf.1 ha
  exact (step_of_fetch_ok hr hf).trans (exec_of_effect (.inpWait hd (by simpa using hq)))

end Sys2Proof.Machine
end

section
/-! CERTIFICATES. The statements of 49_io.md on OUT, IN and the host's moves, settled. -/

namespace Sys2Proof.Machine

/-- Settles O43: IN's one effect on a queue with a head is the write of the head from the state
without it, then the advance. -/
theorem inMovesTheHeadOfTheQueue : Obligations.InMovesTheHeadOfTheQueue := by
  intro s a v q hq hvalid
  obtain ⟨d, ha⟩ := validWord_iff_destOf.1 hvalid
  have heffect := Effect.inpTake ha hq
  exact ⟨_, exec_of_effect heffect, puts_wr_advance ha (fun _ => rfl) (fun _ => rfl) v .inp,
    by simp, by simp [opLength], by simp, by simp, heffect.sameStatus (by simp)⟩

/-- Settles O44: IN's one effect on an empty queue is the change of run state. -/
theorem inOnAnEmptyQueueSuspends : Obligations.InOnAnEmptyQueueSuspends := by
  intro s a hq hvalid
  obtain ⟨d, ha⟩ := validWord_iff_destOf.1 hvalid
  exact ⟨_, exec_of_effect (.inpWait ha hq), rfl, rfl, sameRegs_setRs s _, sameCells_setRs s _,
    sameQueues_setRs s _, sameStatus_setRs_restored s _⟩

/-- Settles O42: OUT's one effect is to emit the resolved source, then the advance. -/
theorem outEmitsTheSourceWhole : Obligations.OutEmitsTheSourceWhole := by
  intro s a v ha
  have heffect := Effect.out (sourceIs_iff_resolve.1 ha)
  exact ⟨_, exec_of_effect heffect, rfl, rfl, rfl, rfl, fun _ => rfl, fun _ => rfl,
    heffect.sameStatus rfl⟩

/-- Settles O53: the step is the move at the head of the host's list. -/
theorem hostMovesHaveTheirEffect : Obligations.HostMovesHaveTheirEffect := by
  intro s rest hr
  refine ⟨fun line hh => ?supplyLine, fun hh => ?debugAssist⟩
  case supplyLine =>
    exact ⟨_, step_of_supplyLine hr hh, rfl, by simp [expandLine], rfl, fun _ => rfl, fun _ => rfl,
      rfl, rfl, rfl, ⟨rfl, rfl, rfl, rfl, rfl, rfl⟩⟩
  case debugAssist =>
    refine ⟨_, step_of_debugAssist hr hh, by simp, fun q hq => ?_, rfl, rfl, fun _ => rfl,
      ⟨rfl, rfl, rfl⟩, rfl, ⟨rfl, rfl, rfl, rfl, rfl, rfl⟩⟩
    simp [hq]

/-- Settles O54: the first step suspends, the second is the host's SupplyLine; the state before
the IN differs from the traced one in the trace only. -/
theorem answeredInputResumesAsIfTheLineHadBeenThere :
    Obligations.AnsweredInputResumesAsIfTheLineHadBeenThere := by
  intro s a line rest hr hf hvalid hq hh
  refine ⟨_, _, step_of_waiting_input hr hf hvalid hq, rfl,
    step_of_supplyLine (line := line) (rest := rest) rfl (by simpa using hh), ?_⟩
  rw [State.eq_of_traced]
  simp [State.supplyLine, State.setRs, State.setHost, hq, hr, expandLine]

end Sys2Proof.Machine
end

section
/-! SUPPORT. What an execution and a fetch can report, and what they leave of the parts that no
instruction reaches (60_exceptions.md rules R240 to R250). -/

namespace Sys2Proof.Machine

/-- An execution that newly reports an exception took one that has its cause. -/
theorem raises_of_new_err {i : Instr} {s t : State} {e : Err} (hnone : s.err = none)
    (hex : exec i s = .next t) (herr : t.err = some e) :
    ∃ r, Raises i s r ∧ r.cause = e.cause ∧ r.subCause = e.subCause := by
  obtain he | ⟨r, hraises, rfl⟩ := exec_cases hex
  · obtain ⟨hkeep, -⟩ := he.frame
    simp [hkeep, hnone] at herr
  · cases herr
    exact ⟨r, hraises, rfl, rfl⟩

/-! ### Each cause, read back to the instruction -/

section
variable {i : Instr} {s : State} {e : Raise}

/-- What raises has an operand word. -/
theorem Raises.operands_ne_nil (h : Raises i s e) : i.operands ≠ [] := by
  cases h with
  | invalid hw => exact List.ne_nil_of_mem hw
  | _ => exact List.cons_ne_nil _ _

theorem Raises.invalidOperand_cause (h : Raises i s e) (hc : e.cause = .invalidOperand) :
    (e.subCause = none ∧ ∃ w, Operand.invalid w ∈ i.operands) ∨
    (e.subCause = some .divisorZero ∧ ∃ a b c, i = .mod a b c ∧ resolve s c = some 0) := by
  cases h with
  | invalid hw => exact .inl ⟨rfl, _, hw⟩
  | divisorZero hz => exact .inr ⟨rfl, _, _, _, rfl, hz⟩
  | _ => cases hc

theorem Raises.stackUnderflow_cause (h : Raises i s e) (hc : e.cause = .stackUnderflow) :
    ∃ a, i = .pop a ∧ s.stack = [] := by
  cases h with
  | underflow hs => exact ⟨_, rfl, hs⟩
  | _ => cases hc

theorem Raises.addressFault_cause (h : Raises i s e) (hc : e.cause = .addressFault) :
    ∃ a b addr, ((i = .rmem a b ∧ resolve s b = some addr) ∨
      (i = .wmem a b ∧ resolve s a = some addr)) ∧ Config.memWords ≤ addr.toNat := by
  cases h with
  | rmemAddress hb hge => exact ⟨_, _, _, .inl ⟨rfl, hb⟩, hge⟩
  | wmemAddress ha hge => exact ⟨_, _, _, .inr ⟨rfl, ha⟩, hge⟩
  | _ => cases hc

theorem Raises.unwrittenRead_cause (h : Raises i s e) (hc : e.cause = .unwrittenRead) :
    ∃ a b addr, i = .rmem a b ∧ resolve s b = some addr ∧ addr.toNat < Config.memWords ∧
      s.mem.read addr.toNat = none ∧ s.params.memFill = none := by
  cases h with
  | rmemUnwritten hb hlt hread hfill => exact ⟨_, _, _, rfl, hb, hlt, hread, hfill⟩
  | _ => cases hc

theorem Raises.stackOverflow_cause (h : Raises i s e) (hc : e.cause = .stackOverflow) :
    ∃ a, (i = .push a ∨ i = .call a) ∧ s.params.stackDepth = some s.stack.length := by
  cases h with
  | pushFull hfull => exact ⟨_, .inl rfl, hfull⟩
  | callFull hfull => exact ⟨_, .inr rfl, hfull⟩
  | _ => cases hc

/-- Only InvalidOperand has a sub-cause (60_exceptions.md rule R241). -/
theorem Raises.cause_of_subCause (h : Raises i s e) (hsub : e.subCause ≠ none) :
    e.cause = .invalidOperand := by
  cases h with
  | divisorZero hz => rfl
  | _ => exact absurd rfl hsub

end

/-! ### Fetch -/

/-- A fetch fails by UnknownOpcode, AddressFault or UnwrittenRead, with no sub-cause. -/
theorem fetch_error_cases {s : State} {e : Raise} (h : fetch s = .error e) :
    e.subCause = none ∧
      (e.cause = .unknownOpcode ∨ e.cause = .addressFault ∨ e.cause = .unwrittenRead) := by
  obtain ⟨k, hk⟩ | ⟨w, -, -, rfl⟩ := decodeFrom_error h
  · obtain ⟨-, rfl⟩ | ⟨-, -, -, rfl⟩ := memRead_error hk
    · exact ⟨rfl, .inr (.inl rfl)⟩
    · exact ⟨rfl, .inr (.inr rfl)⟩
  · exact ⟨rfl, .inl rfl⟩

/-- The opcode word of a fetched instruction is the word at pc. -/
theorem fetchedOpcode_of_fetch {s : State} {i : Instr} (h : fetch s = .ok i) :
    fetchedOpcode s = some (opcodeWord i.op) :=
  fetchedOpcode_of_fetchWord (decodeFrom_words h 0 (by simp [encode]))

theorem fetchedOpcode_of_not_ok {s : State} (h : ∀ w, fetchWord s 0 ≠ .ok w) :
    fetchedOpcode s = none := by
  cases hw : fetchWord s 0 with
  | ok w => exact absurd hw (h w)
  | error e => exact fetchedOpcode_of_error hw

/-! ### Steps -/

/-- A step of a Running core that faults takes one exception, whose report is this. -/
theorem raised_of_step_faulted {s t : State} (hr : s.rs = .running) (hst : step s = .next t)
    (hfaulted : t.rs = .faulted) :
    ∃ r : Raise, (r.subCause ≠ none → r.cause = .invalidOperand) ∧
      Raised { s with traceLog := t.traceLog } t
        { cause := r.cause, subCause := r.subCause, opcode := fetchedOpcode s, pc := s.pc,
          operands := r.operands } := by
  obtain ⟨r, hf, rfl⟩ | ⟨i, hf, hex⟩ := step_running_cases hr hst
  · obtain ⟨hsub, -⟩ := fetch_error_cases hf
    exact ⟨r, fun h => absurd hsub h, raised_raise s _ r⟩
  · obtain he | ⟨r, hraises, rfl⟩ := exec_cases hex
    · obtain hrs | ⟨hrs, -⟩ | ⟨rfl, -⟩ := he.rs_cases
      · simp [hrs, hr] at hfaulted
      · simp [hrs] at hfaulted
      · simp at hfaulted
    · rw [fetchedOpcode_of_fetch hf]
      exact ⟨r, hraises.cause_of_subCause, raised_raise_traced s i _ r⟩

/-- No execution touches TRACE_EN, the trace, the parameters or the host's list. -/
theorem exec_frame {i : Instr} {s t : State} (hex : exec i s = .next t) :
    t.traceEn = s.traceEn ∧ t.traceLog = s.traceLog ∧ t.params = s.params ∧ t.host = s.host := by
  obtain he | ⟨e, -, rfl⟩ := exec_cases hex
  · obtain ⟨-, hframe⟩ := he.frame
    exact hframe
  · exact ⟨rfl, rfl, rfl, rfl⟩

/-- A step of a Running core keeps the parameters and the host's list. -/
theorem step_running_frame {s t : State} (hr : s.rs = .running) (hst : step s = .next t) :
    t.params = s.params ∧ t.host = s.host := by
  obtain ⟨e, -, rfl⟩ | ⟨i, -, hex⟩ := step_running_cases hr hst
  · exact ⟨rfl, rfl⟩
  · obtain ⟨-, -, hparams, hhost⟩ := exec_frame hex
    exact ⟨by simpa using hparams, by simpa using hhost⟩

end Sys2Proof.Machine
end

section
/-! CERTIFICATES. The statements of 60_exceptions.md on exceptions and of 70_reset_and_hazards.md,
settled. -/

namespace Sys2Proof.Machine

/-- Settles O17: the report of the one exception that was taken names pc and the fetched opcode
word. -/
theorem exceptionsArePreciseAndReported : Obligations.ExceptionsArePreciseAndReported := by
  intro s t hr hst hfaulted
  obtain ⟨r, hsub, hraised⟩ := raised_of_step_faulted hr hst hfaulted
  exact ⟨_, hraised, rfl, fun _ => fetchedOpcode_of_fetchWord, fetchedOpcode_of_not_ok, hsub⟩

/-- Settles O18: of all that an instruction raises only POP's empty-stack test has this cause, and a
fetch never has it; RET on an empty stack has the effect of a halt. -/
theorem onlyPopOnAnEmptyStackUnderflows : Obligations.OnlyPopOnAnEmptyStackUnderflows := by
  refine ⟨rfl, fun s a hs => ?pop, fun i s t e hnone hex herr hcause => ?exec,
    fun s t e hnone hst herr hcause => ?step, fun s hs => ?ret⟩
  case pop =>
    obtain ⟨hempty, -⟩ := popAndInRaiseBeforeAnyEffect s a
    obtain ⟨t, hex, hraised⟩ := hempty hs
    exact ⟨t, _, hex, hraised.rs, hraised.err, rfl⟩
  case exec =>
    obtain ⟨r, hraises, hc, -⟩ := raises_of_new_err hnone hex herr
    obtain ⟨a, hi, hs⟩ := hraises.stackUnderflow_cause (hc.trans hcause)
    exact ⟨⟨a, hi⟩, hs⟩
  case step =>
    obtain hr | ⟨-, rest, ⟨line, -, rfl⟩ | ⟨-, rfl⟩⟩ := step_next_cases hst
    · obtain ⟨r, hf, rfl⟩ | ⟨i, hf, hex⟩ := step_running_cases hr hst
      · cases herr
        obtain ⟨-, hc⟩ := fetch_error_cases hf
        simp [show r.cause = .stackUnderflow from hcause] at hc
      · obtain ⟨r, hraises, hc, -⟩ := raises_of_new_err (by simpa using hnone) hex herr
        obtain ⟨a, rfl, hs⟩ := hraises.stackUnderflow_cause (hc.trans hcause)
        exact ⟨⟨a, hf⟩, by simpa using hs⟩
    all_goals simp [hnone] at herr
  case ret => exact ⟨_, exec_of_effect (.retHalt hs), rfl, rfl⟩

/-- Settles O19: what an execution newly reports it raised, and each cause has its instruction and
its condition. -/
theorem everyExceptionHasItsCause : Obligations.EveryExceptionHasItsCause := by
  intro i s t e hnone hex herr
  obtain ⟨r, hraises, hc, hsub⟩ := raises_of_new_err hnone hex herr
  have hoperands := hraises.operands_ne_nil
  simp only [sourceIs_iff_resolve, ← hc, ← hsub]
  exact ⟨fun h => hoperands (h ▸ rfl), fun h => hoperands (h ▸ rfl), fun h => hoperands (h ▸ rfl),
    hraises.cause_ne_unknownOpcode, hraises.invalidOperand_cause, hraises.stackUnderflow_cause,
    hraises.addressFault_cause, hraises.unwrittenRead_cause, hraises.stackOverflow_cause⟩

/-- Settles O13: a Running core keeps both, and a host's move takes itself off the list. -/
theorem stepKeepsTheParameters : Obligations.StepKeepsTheParameters := by
  intro s t hst
  obtain hr | ⟨hr, rest, ⟨line, hh, rfl⟩ | ⟨hh, rfl⟩⟩ := step_next_cases hst
  · obtain ⟨hparams, hhost⟩ := step_running_frame hr hst
    exact ⟨hparams, fun _ => hhost, by simp [hr]⟩
  all_goals exact ⟨rfl, by simp [hr], fun _ => by simp [hh]⟩

end Sys2Proof.Machine
end

section
/-! SUPPORT. The trace record of an instruction (60_exceptions.md rule R255). -/

namespace Sys2Proof.Machine

/-- A record has the raw word of each operand, in order. -/
theorem traceOperands_raw (s : State) (i : Instr) :
    (traceOperands s i).map (fun x => x.raw) = i.operands.map encodeOperand := by
  have htarget (taken : Bool) (o : Operand) : (traceTarget s taken o).raw = encodeOperand o := by
    cases taken <;> rfl
  cases i with
  | jt a b | jf a b => simp [traceOperands, Instr.operands, traceSource, htarget]
  | _ => rfl

/-- The operand at position `k` of `i` is the destination, or a jump's target: its value may be left
out of the record (log 6). -/
def MayBeUntraced (i : Instr) (k : Nat) : Prop :=
  (k = 0 ∧ destWord i ≠ none) ∨ (k = 1 ∧ (i.op = .jt ∨ i.op = .jf))

/-- `x` records `o` as a source, or without a value where that is allowed. -/
def RecordedAs (s : State) (i : Instr) (k : Nat) (o : Operand) (x : TraceOperand) : Prop :=
  x = traceSource s o ∨ (x = traceRaw o ∧ MayBeUntraced i k)

theorem recordedAs_destination {s : State} {i : Instr} {o : Operand} (hi : destWord i = some o) :
    RecordedAs s i 0 o (traceRaw o) :=
  .inr ⟨rfl, .inl ⟨rfl, Option.ne_none_iff_exists'.2 ⟨o, hi⟩⟩⟩

theorem recordedAs_target {s : State} {i : Instr} (hi : i.op = .jt ∨ i.op = .jf) (taken : Bool)
    (o : Operand) : RecordedAs s i 1 o (traceTarget s taken o) := by
  cases taken with
  | true => exact .inl rfl
  | false => exact .inr ⟨rfl, .inr ⟨rfl, hi⟩⟩

theorem traceOperands_recordedAs {s : State} {i : Instr} {k : Nat} {o : Operand} {x : TraceOperand}
    (ho : i.operands[k]? = some o) (hx : (traceOperands s i)[k]? = some x) :
    RecordedAs s i k o x := by
  cases i with
  | halt | ret | noop => cases ho
  | push a | jmp a | call a | out a =>
    match k with
    | 0 => cases ho; cases hx; exact .inl rfl
  | pop a | inp a =>
    match k with
    | 0 => cases ho; cases hx; exact recordedAs_destination rfl
  | jt a b =>
    match k with
    | 0 => cases ho; cases hx; exact .inl rfl
    | 1 => cases ho; cases hx; exact recordedAs_target (.inl rfl) _ _
  | jf a b =>
    match k with
    | 0 => cases ho; cases hx; exact .inl rfl
    | 1 => cases ho; cases hx; exact recordedAs_target (.inr rfl) _ _
  | wmem a b =>
    match k with
    | 0 | 1 => cases ho; cases hx; exact .inl rfl
  | set a b | not a b | rmem a b =>
    match k with
    | 0 => cases ho; cases hx; exact recordedAs_destination rfl
    | 1 => cases ho; cases hx; exact .inl rfl
  | eq a b c | gt a b c | add a b c | mult a b c | mod a b c | and a b c | or a b c =>
    match k with
    | 0 => cases ho; cases hx; exact recordedAs_destination rfl
    | 1 | 2 => cases ho; cases hx; exact .inl rfl

end Sys2Proof.Machine
end

section
/-! SUPPORT. What lies around the core: the trace, the host's list, and codes that stand in the
queue behind those it has. An instruction reaches none of them, but for an IN that finds the queue
empty. -/

namespace Sys2Proof.Machine

/-- A trace, a list of the host's moves, and codes for the end of the queue. -/
structure Surroundings where
  traceEn : Bool
  traceLog : List TraceRecord
  host : List HostAction
  later : List Word

/-- The state in other surroundings. -/
def State.within (s : State) (x : Surroundings) : State :=
  { s with traceEn := x.traceEn, traceLog := x.traceLog, host := x.host, inq := s.inq ++ x.later }

/-- The second result is the first, in other surroundings. -/
def ResultWithin (x : Surroundings) (r r' : Result) : Prop :=
  ∃ t, r = .next t ∧ r' = .next (t.within x)

/-- Executing `i` in `s` suspends. -/
def Waits (i : Instr) (s : State) : Prop := ∃ a, i = .inp a ∧ ValidWord a ∧ s.inq = []

section
variable (s : State) (x : Surroundings)

/-! ### The operations on the state -/

@[simp] theorem State.within_setPc (v : Word) : (s.within x).setPc v = (s.setPc v).within x := rfl
@[simp] theorem State.within_advance (o : Op) :
    (s.within x).advance o = (s.advance o).within x := rfl
@[simp] theorem State.within_storeCell (a : Nat) (v : Word) :
    (s.within x).storeCell a v = (s.storeCell a v).within x := rfl
@[simp] theorem State.within_push (v : Word) : (s.within x).push v = (s.push v).within x := rfl
@[simp] theorem State.within_emit (v : Word) : (s.within x).emit v = (s.emit v).within x := rfl
@[simp] theorem State.within_setRs (v : RunState) :
    (s.within x).setRs v = (s.setRs v).within x := rfl
@[simp] theorem State.within_wr (d : Dest) (v : Word) :
    (s.within x).wr d v = (s.wr d v).within x := by
  cases d <;> rfl

/-! ### The checks -/

@[simp] theorem rd_within (p : Pos) (o : Operand) : rd (s.within x) p o = rd s p o := by
  cases o <;> rfl

@[simp] theorem memRead_within (src : List ErrEntry) (a : Nat) :
    memRead (s.within x) src a = memRead s src a := rfl

@[simp] theorem memWrite_within (src : List ErrEntry) (a : Nat) (v : Word) :
    memWrite (s.within x) src a v = (·.within x) <$> memWrite s src a v := by
  unfold memWrite
  split <;> rfl

@[simp] theorem stackRoom_within : stackRoom (s.within x) = stackRoom s := rfl

@[simp] theorem returnAddress_within : returnAddress (s.within x) = returnAddress s := rfl

@[simp] theorem pop?_within : (s.within x).pop? = s.pop?.map fun (v, t) => (v, t.within x) := by
  have hstack : (s.within x).stack = s.stack := rfl
  unfold State.pop?
  rw [hstack]
  cases s.stack.getLast? <;> rfl

/-- The head of the queue is the same, but where only the other queue has one. -/
theorem deq?_within (h : s.inq = [] → x.later = []) :
    (s.within x).deq? = s.deq?.map fun (v, t) => (v, t.within x) := by
  have hinq : (s.within x).inq = s.inq ++ x.later := rfl
  unfold State.deq?
  rw [hinq]
  cases hq : s.inq with
  | nil => simp [h hq]
  | cons v q => rfl

theorem fetch_within : fetch (s.within x) = fetch s := rfl

theorem State.within_traced (i : Instr) :
    ∃ log, (s.within x).traced i = (s.traced i).within { x with traceLog := log } := by
  refine ⟨((s.within x).traced i).traceLog, ?_⟩
  conv_lhs => rw [State.eq_of_traced]
  simp [State.within]

/-! ### Execution -/

variable {s x} in
theorem ResultWithin.complete {r r' : Check State} (o : Op) (h : r' = (·.within x) <$> r) :
    ResultWithin x (complete o s r) (complete o (s.within x) r') := by
  subst h
  cases r with
  | ok t => exact ⟨t, rfl, rfl⟩
  | error e => exact ⟨_, rfl, rfl⟩

theorem unaryResult_within (o : Op) (f : Word → Word) (a b : Operand) :
    ResultWithin x (unaryResult o f a b s) (unaryResult o f a b (s.within x)) :=
  .complete o (by simp [map_bind])

theorem binaryResult_within (o : Op) (f : Word → Word → Word) (a b c : Operand) :
    ResultWithin x (binaryResult o f a b c s) (binaryResult o f a b c (s.within x)) :=
  .complete o (by simp [map_bind])

theorem conditionalJump_within (o : Op) (taken : Word → Bool) (a b : Operand) :
    ResultWithin x (conditionalJump o taken a b s) (conditionalJump o taken a b (s.within x)) := by
  refine .complete o ?_
  simp only [rd_within, map_bind]
  congr 1; funext va
  split <;> simp [map_bind]

theorem execMod_within (a b c : Operand) :
    ResultWithin x (execMod a b c s) (execMod a b c (s.within x)) := by
  refine .complete .mod ?_
  simp only [rd_within, map_bind]
  congr 1; funext vb
  congr 1; funext vc
  split <;> simp [map_bind]

theorem execPop_within (a : Operand) : ResultWithin x (execPop a s) (execPop a (s.within x)) := by
  refine .complete .pop ?_
  rw [pop?_within]
  cases s.pop? with
  | none => rfl
  | some r => simp [map_bind]

theorem execRet_within : ResultWithin x (execRet s) (execRet (s.within x)) := by
  unfold execRet
  rw [pop?_within]
  cases s.pop? with
  | none => exact ⟨_, rfl, rfl⟩
  | some r => exact ⟨_, rfl, rfl⟩

theorem execInp_within (a : Operand) (h : Waits (.inp a) s → x.later = []) :
    ResultWithin x (execInp a s) (execInp a (s.within x)) := by
  refine .complete .inp ?_
  by_cases ha : ValidWord a
  · rw [deq?_within s x fun hq => h ⟨a, rfl, ha, hq⟩]
    cases s.deq? <;> simp [map_bind]
  · simp [destok_of_not_validWord .a ha]

/-- An instruction that does not suspend does the same in other surroundings, and so does an IN that
suspends if these put no code in the queue. -/
theorem exec_within {i : Instr} (h : Waits i s → x.later = []) :
    ResultWithin x (exec i s) (exec i (s.within x)) := by
  cases i with
  | halt | noop => exact ⟨_, rfl, rfl⟩
  | set a b | not a b => exact unaryResult_within s x _ _ a b
  | eq a b c | gt a b c | add a b c | mult a b c | and a b c | or a b c =>
    exact binaryResult_within s x _ _ a b c
  | jt a b | jf a b => exact conditionalJump_within s x _ _ a b
  | mod a b c => exact execMod_within s x a b c
  | pop a => exact execPop_within s x a
  | ret => exact execRet_within s x
  | inp a => exact execInp_within s x a h
  | push a | jmp a | call a | out a | rmem a b | wmem a b =>
    exact .complete _ (by simp [map_bind])

variable {s} in
/-- A step of a Running core, in other surroundings. -/
theorem step_within {t : State} (hr : s.rs = .running) (hst : step s = .next t)
    (h : ∀ i, fetch s = .ok i → Waits i s → x.later = []) :
    ∃ log, step (s.within x) = .next (t.within { x with traceLog := log }) := by
  have hr' : (s.within x).rs = .running := hr
  have hfetch := fetch_within s x
  obtain ⟨e, hf, rfl⟩ | ⟨i, hf, hex⟩ := step_running_cases hr hst
  · exact ⟨x.traceLog, step_of_fetch_error hr' (hfetch.trans hf)⟩
  · obtain ⟨log, htraced⟩ := State.within_traced s x i
    refine ⟨log, ?_⟩
    have hwaits : Waits i (s.traced i) → x.later = [] := fun ⟨a, hi, ha, hq⟩ =>
      h i hf ⟨a, hi, ha, by simpa using hq⟩
    obtain ⟨t', ht', hu⟩ := exec_within (s.traced i) { x with traceLog := log } hwaits
    obtain rfl : t = t' := by simpa [hex] using ht'
    rw [step_of_fetch_ok hr' (hfetch.trans hf), htraced, hu]

end

end Sys2Proof.Machine
end

section
/-! SUPPORT. Runs, step by step. -/

namespace Sys2Proof.Machine

section
variable {M : Host.Core} {s t : M.State}

theorem run_succ_iff {n : Nat} :
    M.run (n + 1) s = .next t ↔ ∃ u, M.step s = .next u ∧ M.run n u = .next t := by
  rw [Host.Core.run]
  cases M.step s <;> simp

theorem run_add_of_run {m n : Nat} {u : M.State} (hm : M.run m s = .next u) :
    M.run (m + n) s = M.run n u := by
  induction m generalizing s with
  | zero =>
    cases hm
    rw [Nat.zero_add]
  | succ m ih =>
    obtain ⟨v, hv, hm⟩ := run_succ_iff.1 hm
    rw [Nat.add_right_comm, Host.Core.run, hv]
    exact ih hm

/-- A run that ends in a state without a step has passed through each state reached before. -/
theorem run_through {m n : Nat} {u : M.State} (hm : M.run m s = .next u) (hn : M.run n s = .next t)
    (hstuck : ∀ v, M.step t ≠ .next v) : ∃ k, n = m + k ∧ M.run k u = .next t := by
  induction m generalizing s n with
  | zero =>
    cases hm
    exact ⟨n, (Nat.zero_add n).symm, hn⟩
  | succ m ih =>
    obtain ⟨v, hv, hm⟩ := run_succ_iff.1 hm
    cases n with
    | zero =>
      cases hn
      exact absurd hv (hstuck v)
    | succ n =>
      obtain ⟨v', hv', hn⟩ := run_succ_iff.1 hn
      obtain rfl : v = v' := by simpa [hv] using hv'
      obtain ⟨k, rfl, hk⟩ := ih hm hn
      exact ⟨k, Nat.add_right_comm m k 1, hk⟩

theorem eq_of_run_of_no_step {n : Nat} (hstuck : ∀ v, M.step s ≠ .next v)
    (hn : M.run n s = .next t) : t = s := by
  cases n with
  | zero => cases hn; rfl
  | succ n =>
    obtain ⟨v, hv, -⟩ := run_succ_iff.1 hn
    exact absurd hv (hstuck v)

end

theorem no_step_of_ended {s : State} (h : s.ended) (u : State) : step s ≠ .next u := by
  obtain hr | hr := h <;> simp [step, hr]

end Sys2Proof.Machine
end

section
/-! CERTIFICATES. The statements of 60_exceptions.md on the trace, settled. -/

namespace Sys2Proof.Machine

/-- Settles O57: TRACE_EN and the trace are among the surroundings, which no step of a Running core
reaches, and a host's move sets them or keeps them, whatever they were. -/
theorem traceIsInvisibleToTheMachine : Obligations.TraceIsInvisibleToTheMachine := by
  intro s t b log hst
  obtain hr | ⟨hr, rest, ⟨line, hh, rfl⟩ | ⟨hh, rfl⟩⟩ := step_next_cases hst
  · have hwithin : { s with traceEn := b, traceLog := log } = s.within ⟨b, log, s.host, []⟩ := by
      simp [State.within]
    obtain ⟨log', hu⟩ := step_within ⟨b, log, s.host, []⟩ hr hst fun _ _ _ => rfl
    obtain ⟨-, hhost⟩ := step_running_frame hr hst
    exact ⟨_, hwithin ▸ hu, by simp [withoutTrace, State.within, hhost]⟩
  · exact ⟨_, step_of_supplyLine hr hh, rfl⟩
  · exact ⟨_, step_of_debugAssist hr hh, rfl⟩

/-- Settles O58: the trace is written before the execution, which does not touch it, and each
operand is recorded as `RecordedAs` says. -/
theorem traceRecordsEveryExecutedInstruction :
    Obligations.TraceRecordsEveryExecutedInstruction := by
  intro s t hr hst
  obtain ⟨e, hf, rfl⟩ | ⟨i, hf, hex⟩ := step_running_cases hr hst
  · exact ⟨fun _ => rfl, fun _ _ => rfl, fun i _ hi => by simp [hf] at hi⟩
  obtain ⟨-, htrace, -, -⟩ := exec_frame hex
  rw [State.traced_traceLog] at htrace
  refine ⟨fun hoff => by simpa [hoff] using htrace, fun e he => by simp [hf] at he,
    fun j hon hj => ?_⟩
  obtain rfl : i = j := by simpa [hf] using hj
  refine ⟨traceRecord s i, by simpa [hon] using htrace, rfl, rfl, traceOperands_raw s i,
    fun k o x v ho hx => ?_⟩
  rw [sourceIs_iff_resolve]
  obtain rfl | ⟨rfl, hmay⟩ := traceOperands_recordedAs ho hx
  · exact ⟨id, fun hv _ _ => hv⟩
  · refine ⟨(nomatch ·), fun _ hdest htarget => ?_⟩
    obtain ⟨hk, hne⟩ | ⟨hk, hjump⟩ := hmay
    · exact absurd (hdest hk) hne
    · obtain ⟨hjt, hjf⟩ := htarget hk
      exact absurd hjump (not_or.2 ⟨hjt, hjf⟩)

end Sys2Proof.Machine
end

section
/-! SUPPORT. A live run and its replay (49_io.md rule R217): the replay has in its queue, behind
the codes of the live one, the lines that the live host has yet to supply. Each step of the replay
is one step of the live run, or three where the live one first suspends and is answered. -/

namespace Sys2Proof.Machine

/-- `replay` is `live` but for the trace, and it has in its queue the lines that are still to come
to `live`, which does not wait for one. -/
structure Replays (lines : List (List Word)) (live replay : State) : Prop where
  host : live.host = lines.map .supplyLine
  waits : live.rs = .awaitingInput → lines = []
  within : ∃ b log, replay = live.within ⟨b, log, [], preseedOf lines⟩

/-- What the two runs have in common when they end. -/
def SameEnd (t u : State) : Prop :=
  u.rs = t.rs ∧ u.regs = t.regs ∧ u.mem = t.mem ∧ u.stack = t.stack ∧ u.pc = t.pc ∧
    u.outLog = t.outLog ∧ u.err = t.err

/-- A core that suspends executes an instruction that suspends. -/
theorem waits_of_step {s t : State} (hr : s.rs = .running) (hst : step s = .next t)
    (ht : t.rs = .awaitingInput) : ∃ i, fetch s = .ok i ∧ Waits i s := by
  have hlisted := runStateChangesOnlyAsListed s t hst
  simp only [hr, ht, reduceCtorEq, false_and, and_false, false_or, or_false, true_and] at hlisted
  obtain ⟨a, hf, ha, hq⟩ := hlisted
  exact ⟨_, hf, a, rfl, ha, hq⟩

section
variable {lines : List (List Word)} {live replay : State}

theorem Replays.sameEnd (h : Replays lines live replay) : SameEnd live replay := by
  obtain ⟨b, log, rfl⟩ := h.within
  exact ⟨rfl, rfl, rfl, rfl, rfl, rfl, rfl⟩

/-- Where the live run is not Running, neither run has a step. -/
theorem Replays.no_step (h : Replays lines live replay) (hr : live.rs ≠ .running) :
    (∀ v, step live ≠ .next v) ∧ ∀ v, step replay ≠ .next v := by
  obtain ⟨hhost, hwaits, b, log, rfl⟩ := h
  have hrs : (live.within ⟨b, log, [], preseedOf lines⟩).rs = live.rs := rfl
  cases hl : live.rs with
  | running => exact absurd hl hr
  | awaitingInput =>
    have hnone : live.host = [] := by simp [hhost, hwaits hl]
    rw [step_of_awaitingInput hl, step_of_awaitingInput (hrs.trans hl), hostTurn_of_no_move hnone,
      hostTurn_of_no_move rfl]
    exact ⟨by simp, by simp⟩
  | halted => exact ⟨no_step_of_ended (.inl hl), no_step_of_ended (.inl hl)⟩
  | faulted => exact ⟨no_step_of_ended (.inr hl), no_step_of_ended (.inr hl)⟩

/-- Where the live run need not be given a line, both runs make the same step. -/
theorem Replays.step_both (h : Replays lines live replay) (hr : live.rs = .running)
    (hready : ∀ i, fetch live = .ok i → Waits i live → lines = []) :
    ∃ live' replay', step live = .next live' ∧ step replay = .next replay' ∧
      Replays lines live' replay' := by
  obtain ⟨hhost, -, b, log, rfl⟩ := h
  obtain ⟨t, hst⟩ := step_running_next hr
  obtain ⟨log', hu⟩ := step_within ⟨b, log, [], preseedOf lines⟩ hr hst
    fun i hf hw => by rw [hready i hf hw]; rfl
  obtain ⟨-, hkeep⟩ := step_running_frame hr hst
  refine ⟨t, _, hst, hu, hkeep.trans hhost, fun ht => ?_, b, log', rfl⟩
  obtain ⟨i, hf, hw⟩ := waits_of_step hr hst ht
  exact hready i hf hw

/-- An IN that waits is answered in two steps, while the replay stands at the same IN. -/
theorem Replays.supply {line : List Word} {i : Instr} (h : Replays (line :: lines) live replay)
    (hr : live.rs = .running) (hf : fetch live = .ok i) (hw : Waits i live) :
    ∃ live', core.run 2 live = .next live' ∧ live'.rs = .running ∧ live'.inq ≠ [] ∧
      Replays lines live' replay := by
  obtain ⟨hhost, -, b, log, rfl⟩ := h
  obtain ⟨a, rfl, ha, hq⟩ := hw
  obtain ⟨t, u, hst, -, hsu, hu⟩ := answeredInputResumesAsIfTheLineHadBeenThere live a line _ hr hf
    ha hq hhost
  rw [hu] at hsu
  refine ⟨_, run_succ_iff.2 ⟨t, hst, run_succ_iff.2 ⟨_, hsu, rfl⟩⟩, hr, by simp, rfl,
    by simp [hr], b, log, ?_⟩
  simp [State.within, hq, preseedOf, expandLine]

/-- A step of the replay is one step or more of the live run. -/
theorem Replays.step_replay (h : Replays lines live replay) (hr : live.rs = .running) :
    ∃ k lines' live' replay', core.run (k + 1) live = .next live' ∧ step replay = .next replay' ∧
      Replays lines' live' replay' := by
  by_cases hready : ∀ i, fetch live = .ok i → Waits i live → lines = []
  · obtain ⟨live', replay', hl, hu, h'⟩ := h.step_both hr hready
    exact ⟨0, lines, live', replay', run_succ_iff.2 ⟨_, hl, rfl⟩, hu, h'⟩
  · push Not at hready
    obtain ⟨i, hf, hw, hne⟩ := hready
    obtain ⟨line, lines, rfl⟩ := List.exists_cons_of_ne_nil hne
    obtain ⟨mid, hrun, hmid, hq, hmid'⟩ := h.supply hr hf hw
    obtain ⟨live', replay', hl, hu, h'⟩ := hmid'.step_both hmid
      fun _ _ ⟨_, _, _, hempty⟩ => absurd hempty hq
    have hthree : core.run 3 live = .next live' :=
      (run_add_of_run (n := 1) hrun).trans (run_succ_iff.2 ⟨_, hl, rfl⟩)
    exact ⟨2, lines, live', replay', hthree, hu, h'⟩

/-- If the live run ends, its replay ends alike: by induction on the length of the live run. -/
theorem Replays.replay_ends {n : Nat} {t : State} (h : Replays lines live replay)
    (hn : core.run n live = .next t) (ht : t.ended) :
    ∃ m u, core.run m replay = .next u ∧ SameEnd t u := by
  induction n using Nat.strong_induction_on generalizing lines live replay with
  | _ n ih =>
    by_cases hr : live.rs = .running
    · obtain ⟨k, lines', live', replay', hl, hu, h'⟩ := h.step_replay hr
      obtain ⟨n', rfl, hn'⟩ := run_through hl hn (no_step_of_ended ht)
      obtain ⟨m, u, hm, hsame⟩ := ih n' (by omega) h' hn'
      exact ⟨m + 1, u, run_succ_iff.2 ⟨_, hu, hm⟩, hsame⟩
    · obtain ⟨hstuck, -⟩ := h.no_step hr
      obtain rfl := eq_of_run_of_no_step hstuck hn
      exact ⟨0, replay, rfl, h.sameEnd⟩

/-- Whatever state the replay reaches, ended or not, the live run reaches its like: by induction
on the length of the replay. -/
theorem Replays.live_reaches {m : Nat} {u : State} (h : Replays lines live replay)
    (hm : core.run m replay = .next u) :
    ∃ n t, core.run n live = .next t ∧ SameEnd t u := by
  induction m generalizing lines live replay with
  | zero =>
    cases hm
    exact ⟨0, live, rfl, h.sameEnd⟩
  | succ m ih =>
    obtain ⟨v, hv, hm⟩ := run_succ_iff.1 hm
    by_cases hr : live.rs = .running
    · obtain ⟨k, lines', live', replay', hl, hstep, h'⟩ := h.step_replay hr
      obtain rfl : replay' = v := Host.Outcome.next.inj (hstep.symm.trans hv)
      obtain ⟨n, t, hn, hsame⟩ := ih h' hm
      exact ⟨k + 1 + n, t, (run_add_of_run hl).trans hn, hsame⟩
    · obtain ⟨-, hstuck⟩ := h.no_step hr
      exact absurd hv (hstuck v)

end

end Sys2Proof.Machine
end

section
/-! CERTIFICATES. The statement of 49_io.md on replay, settled. -/

namespace Sys2Proof.Machine

/-- Settles O55: the two runs of the statement are a live run and its replay, and reset puts the
preseed in the queue as it stands. -/
theorem replayOfTheLinesGivesTheLiveRun : Obligations.ReplayOfTheLinesGivesTheLiveRun := by
  refine ⟨fun s lines hr => ?runs, fun p image lines s hboot => ?preseed⟩
  case runs =>
    have h : Replays lines { s with host := lines.map .supplyLine }
        { s with host := [], inq := s.inq ++ preseedOf lines } :=
      ⟨rfl, by simp [hr], s.traceEn, s.traceLog, rfl⟩
    exact ⟨fun n t hn ht => h.replay_ends hn ht, fun m u hm _ => h.live_reaches hm⟩
  case preseed =>
    obtain ⟨-, rfl⟩ := boot_next_iff.1 hboot
    rfl

end Sys2Proof.Machine
end
